-- ==== Sys2Proof/Word.lean ====
section
/-! DEFINITION. The word types of RPK58: a command word and a response's data are 32-bit values whose
fields are defined by bit number (spec/20_memory.md R68); numbering as spec/00_scope.md R11. -/

namespace Sys2Proof

/-- A command word, or the data of a response: one 32-bit value (R68, R80, R200). -/
abbrev Word := BitVec 32

/-- An 8-bit byte: a character code (R35) or an emitted byte (R113). -/
abbrev Byte := BitVec 8

/-- A 5-bit symbol (R9 `SYM_W`, R15). -/
abbrev Symbol := BitVec 5

/-- A 16-bit binary angle, 65536 units per full turn (R146). -/
abbrev Angle := BitVec 16

end Sys2Proof
end

