-- ==== Sys2Proof/Syntax.lean ====
section
/-! DEFINITION. The commands of RPK58 (spec/30_encoding.md R82), one constructor per row of
spec/opcode_table.json, with operands of exactly the field widths of R81: a value that does not fit
its field cannot be built. Also the formats and opcodes (R81, R82), the two ways a word can be
illegal (R84, R85), and the assembly lines of R89 and R90, whose operands are unbounded integers. -/

namespace Sys2Proof

/-- A command (R82) with the operands of its format (R81, R83). -/
inductive Instr where
  /-- NOP (R180). -/
  | nop
  /-- CLR: start a new message (R110). -/
  | clr
  /-- PUSHS: push a raw 5-bit symbol (R112). -/
  | pushs (sym : Symbol)
  /-- PUSHC: push a character through the alphabet (R114). -/
  | pushc (chr : Byte)
  /-- END: end the message (R116). -/
  | endMsg
  /-- SETCX: set the center x; `val` is read as two's complement (R83, R140). -/
  | setcx (val : BitVec 16)
  /-- SETCY: set the center y; `val` is read as two's complement (R83, R141). -/
  | setcy (val : BitVec 16)
  /-- SETR: set the radius (R142). -/
  | setr (rad : BitVec 15)
  /-- SETN: set the total frame count (R143). -/
  | setn (nf : BitVec 24)
  /-- MAPA: map a binary angle (R144). -/
  | mapa (ang : Angle)
  /-- MAPS: map a slot at a frame's rotation (R145). -/
  | maps (slot : BitVec 3) (frm : BitVec 24)
  /-- RDREG: read a register by index (R181). -/
  | rdreg (idx : BitVec 4)
  /-- ECLR: read STATUS and clear sticky bits (R182). -/
  | eclr (mask : BitVec 6)
  deriving DecidableEq, Repr

/-- The 13 opcodes of R82. -/
inductive Opcode where
  | nop | clr | pushs | pushc | endMsg | setcx | setcy | setr | setn | mapa | maps | rdreg | eclr
  deriving DecidableEq, Repr

/-- The ten formats of R81. -/
inductive Format where
  | f0 | fs | fc | fv | fr | fn | fa | fm | fi | fe
  deriving DecidableEq, Repr

/-- Why a word is no command, in the order of R205 point 1. -/
inductive Illegal where
  /-- The opcode is 0xD, 0xE or 0xF (R85). -/
  | reservedOpcode
  /-- A bit that the opcode's format marks reserved is 1 (R84). -/
  | reservedBits
  deriving DecidableEq, Repr

/-- The register names RDREG takes in assembly (R89, R181), in index order 0 to 9. -/
inductive RegName where
  | status | incnt | bytecnt | pend | cx | cy | r | nframes | id | lastang
  deriving DecidableEq, Repr

/-- One assembly line: the operand forms of R89 and the pseudo-instructions of R90. Numeric operands
are the integers the programmer writes; `wellFormed` gives their ranges. -/
inductive AsmLine where
  | nop
  | clr
  | pushs (sym : Int)
  | pushc (chr : Int)
  /-- `PUSHC 'c'`. -/
  | pushcChar (c : Char)
  | endMsg
  | setcx (v : Int)
  | setcy (v : Int)
  | setr (r : Int)
  | setn (n : Int)
  | mapa (a : Int)
  | maps (slot : Int) (frame : Int)
  | rdreg (idx : Int)
  /-- `RDREG` with a register name (R181). -/
  | rdregName (name : RegName)
  | eclr (mask : Int)
  /-- `PUSHSTR "c1c2...ck"` (R90). -/
  | pushstr (cs : List Char)
  /-- `RDSTAT` (R90). -/
  | rdstat
  /-- `CLRERR` (R90). -/
  | clrerr
  /-- `SETC x, y` (R90). -/
  | setc (x : Int) (y : Int)
  deriving DecidableEq, Repr

end Sys2Proof
end

