-- ==== Sys2Proof/WellFormed.lean ====
section
/-! DEFINITION. Which assembly lines an assembler accepts (spec/30_encoding.md R89: "An assembler rejects
an operand outside its range rather than truncate it"). An `Instr` needs no check: its operands have
exactly the widths of their fields, so every `Instr` is well formed. -/

namespace Sys2Proof

/-- `lo` to `hi`, both included. -/
def inRange (lo hi v : Int) : Bool := decide (lo ≤ v) && decide (v ≤ hi)

/-- A character operand stands for its ASCII code (R35, R89; log entry 11). -/
def asciiChar (c : Char) : Bool := decide (c.toNat < 128)

/-- The operand ranges of R89 and, by their expansions, of R90. -/
def AsmLine.wellFormed : AsmLine → Bool
  | .nop => true
  | .clr => true
  | .pushs sym => inRange 0 31 sym
  | .pushc chr => inRange 0 255 chr
  | .pushcChar c => asciiChar c
  | .endMsg => true
  | .setcx v => inRange (-32768) 32767 v
  | .setcy v => inRange (-32768) 32767 v
  | .setr r => inRange 0 32767 r
  | .setn n => inRange 0 16777215 n
  | .mapa a => inRange 0 65535 a
  | .maps slot frame => inRange 0 7 slot && inRange 0 16777215 frame
  | .rdreg idx => inRange 0 15 idx
  | .rdregName _ => true
  | .eclr mask => inRange 0 63 mask
  | .pushstr cs => cs.all asciiChar
  | .rdstat => true
  | .clrerr => true
  | .setc x y => inRange (-32768) 32767 x && inRange (-32768) 32767 y

end Sys2Proof
end

