-- ==== Sys2Proof/Decode.lean ====
section
/-! DEFINITION. The decoder of spec/30_encoding.md R86, total on 32-bit words, the encoder written from the
bit diagrams of R81, the assembler of R89 and R90, and the host's view of the decoder. -/

namespace Sys2Proof

/-- The opcode field OP = `w[31:28]` (R80). -/
def opField (w : Word) : BitVec 4 := w.extractLsb' 28 4

/-- The opcode map of R82; 0xD, 0xE and 0xF are reserved. -/
def opcodeOf (op : BitVec 4) : Option Opcode :=
  match op.toNat with
  | 0x0 => some .nop
  | 0x1 => some .clr
  | 0x2 => some .pushs
  | 0x3 => some .pushc
  | 0x4 => some .endMsg
  | 0x5 => some .setcx
  | 0x6 => some .setcy
  | 0x7 => some .setr
  | 0x8 => some .setn
  | 0x9 => some .mapa
  | 0xA => some .maps
  | 0xB => some .rdreg
  | 0xC => some .eclr
  | _ => none

/-- The value of OP for an opcode (R82). -/
def Opcode.code : Opcode → BitVec 4
  | .nop => 0x0#4
  | .clr => 0x1#4
  | .pushs => 0x2#4
  | .pushc => 0x3#4
  | .endMsg => 0x4#4
  | .setcx => 0x5#4
  | .setcy => 0x6#4
  | .setr => 0x7#4
  | .setn => 0x8#4
  | .mapa => 0x9#4
  | .maps => 0xA#4
  | .rdreg => 0xB#4
  | .eclr => 0xC#4

/-- The format of an opcode (R82). -/
def Opcode.format : Opcode → Format
  | .nop => .f0
  | .clr => .f0
  | .pushs => .fs
  | .pushc => .fc
  | .endMsg => .f0
  | .setcx => .fv
  | .setcy => .fv
  | .setr => .fr
  | .setn => .fn
  | .mapa => .fa
  | .maps => .fm
  | .rdreg => .fi
  | .eclr => .fe

/-- The opcode bits and the reserved bits of a format, as in the opcode table's `mask` (R81, R84). -/
def Format.mask : Format → Word
  | .f0 => 0xFFFFFFFF#32
  | .fs => 0xFFFFFFE0#32
  | .fc => 0xFFFFFF00#32
  | .fv => 0xFFFF0000#32
  | .fr => 0xFFFF8000#32
  | .fn => 0xFF000000#32
  | .fa => 0xFFFF0000#32
  | .fm => 0xF8000000#32
  | .fi => 0xFFFFFFF0#32
  | .fe => 0xFFFFFFC0#32

/-- The command of an opcode with its operand fields read from the word (R81, R83). -/
def Opcode.operands (op : Opcode) (w : Word) : Instr :=
  match op with
  | .nop => .nop
  | .clr => .clr
  | .pushs => .pushs (w.extractLsb' 0 5)
  | .pushc => .pushc (w.extractLsb' 0 8)
  | .endMsg => .endMsg
  | .setcx => .setcx (w.extractLsb' 0 16)
  | .setcy => .setcy (w.extractLsb' 0 16)
  | .setr => .setr (w.extractLsb' 0 15)
  | .setn => .setn (w.extractLsb' 0 24)
  | .mapa => .mapa (w.extractLsb' 0 16)
  | .maps => .maps (w.extractLsb' 24 3) (w.extractLsb' 0 24)
  | .rdreg => .rdreg (w.extractLsb' 0 4)
  | .eclr => .eclr (w.extractLsb' 0 6)

/-- `decode` of R86: reserved opcodes first, then the reserved bits (R205), then the fields. -/
def decode (w : Word) : Except Illegal Instr :=
  match opcodeOf (opField w) with
  | none => .error .reservedOpcode
  | some op =>
    if w &&& op.format.mask = op.code ++ 0#28 then .ok (op.operands w)
    else .error .reservedBits

/-- The opcode of a command (R82). -/
def Instr.opcode : Instr → Opcode
  | .nop => .nop
  | .clr => .clr
  | .pushs _ => .pushs
  | .pushc _ => .pushc
  | .endMsg => .endMsg
  | .setcx _ => .setcx
  | .setcy _ => .setcy
  | .setr _ => .setr
  | .setn _ => .setn
  | .mapa _ => .mapa
  | .maps _ _ => .maps
  | .rdreg _ => .rdreg
  | .eclr _ => .eclr

/-- The bits 27:0 of a command, as the bit diagrams of R81 lay them out. -/
def Instr.operandBits : Instr → BitVec 28
  | .nop => 0#28
  | .clr => 0#28
  | .pushs sym => 0#23 ++ sym
  | .pushc chr => 0#20 ++ chr
  | .endMsg => 0#28
  | .setcx val => 0#12 ++ val
  | .setcy val => 0#12 ++ val
  | .setr rad => 0#13 ++ rad
  | .setn nf => 0#4 ++ nf
  | .mapa ang => 0#12 ++ ang
  | .maps slot frm => 0#1 ++ slot ++ frm
  | .rdreg idx => 0#24 ++ idx
  | .eclr mask => 0#22 ++ mask

/-- The word of a command: the opcode, then the bits of its format (R81). -/
def encode (i : Instr) : Word := i.opcode.code ++ i.operandBits

/-- The index of a register name (R181). -/
def RegName.index : RegName → BitVec 4
  | .status => 0#4
  | .incnt => 1#4
  | .bytecnt => 2#4
  | .pend => 3#4
  | .cx => 4#4
  | .cy => 5#4
  | .r => 6#4
  | .nframes => 7#4
  | .id => 8#4
  | .lastang => 9#4

/-- The code of a character operand (R35, R89): its ASCII code (log entry 11). -/
def charCode (c : Char) : Byte := BitVec.ofNat 8 c.toNat

/-- The commands a line stands for: one for the forms of R89, the expansion for those of R90. -/
def AsmLine.expand : AsmLine → List Instr
  | .nop => [.nop]
  | .clr => [.clr]
  | .pushs sym => [.pushs (BitVec.ofInt 5 sym)]
  | .pushc chr => [.pushc (BitVec.ofInt 8 chr)]
  | .pushcChar c => [.pushc (charCode c)]
  | .endMsg => [.endMsg]
  | .setcx v => [.setcx (BitVec.ofInt 16 v)]
  | .setcy v => [.setcy (BitVec.ofInt 16 v)]
  | .setr r => [.setr (BitVec.ofInt 15 r)]
  | .setn n => [.setn (BitVec.ofInt 24 n)]
  | .mapa a => [.mapa (BitVec.ofInt 16 a)]
  | .maps slot frame => [.maps (BitVec.ofInt 3 slot) (BitVec.ofInt 24 frame)]
  | .rdreg idx => [.rdreg (BitVec.ofInt 4 idx)]
  | .rdregName name => [.rdreg name.index]
  | .eclr mask => [.eclr (BitVec.ofInt 6 mask)]
  | .pushstr cs => cs.map fun c => .pushc (charCode c)
  | .rdstat => [.rdreg 0#4]
  | .clrerr => [.eclr 0x3F#6]
  | .setc x y => [.setcx (BitVec.ofInt 16 x), .setcy (BitVec.ofInt 16 y)]

/-- The words a line assembles to; none where an operand is outside its range (R89). -/
def assemble (line : AsmLine) : Option (List Word) :=
  if line.wellFormed then some (line.expand.map encode) else none

/-- The command word the opcode table's bits `w` stand for: every command is one 32-bit word and no
byte order enters (R68, R80; log entry 12). -/
def tableWord (w : Nat) : Word := BitVec.ofNat 32 w

/-- The host's view of `decode`: the command of a word numbered as the opcode table numbers it. -/
def decodeTableWord (_nbits w : Nat) : Option Instr :=
  match decode (tableWord w) with
  | .ok i => some i
  | .error _ => none

end Sys2Proof
end

