-- ==== Sys2Proof/Config.lean ====
section
/-! DEFINITION. The implementation parameters of spec/00_scope.md R9 that are plain numbers; its widths
are the widths of the types in Word.lean, Syntax.lean and Machine/State.lean. Nothing is left open
(spec/93_implementation_defined.md: "no item is `any value`"), so there is no free value.
The two constant tables (R35, R36) stand in Machine/Operands.lean. -/

namespace Sys2Proof.Config

/-- `LEN_MULT`: a valid input length is a non-zero multiple of this (R9, R116). -/
def lengthMultiple : Nat := 8

/-- `ROT_SPAN`, 45 degrees, in binary-angle units (R9, R146, R149). -/
def rotationSpan : Nat := 45 * 65536 / 360

/-- Binary-angle units per full turn (R9 `ANG_W`, R146). -/
def fullTurn : Nat := 65536

/-- `TRIG_F` = 14 fraction bits: the integer that stands for 1.0 (R9, R147). -/
def trigOne : Nat := 16384

/-- `ID_VALUE`, the ASCII codes of "RP58" (R9, R34). -/
def idValue : Word := 0x52503538#32

end Sys2Proof.Config
end

