-- ==== Sys2Proof/Machine/State.lean ====
section
/-! DEFINITION. The architectural state of RPK58 (spec/10_state.md R21), the host interface as plain data
(spec/00_scope.md R8, spec/60_exceptions.md R200, spec/70_reset_and_hazards.md R240), the reasons a step
could stop, and the state after reset (R230). -/

namespace Sys2Proof.Machine

/-- The response statuses of R201; codes 7 to 15 "are never produced". -/
inductive Status where
  /-- 0: the command did what its rule says. -/
  | ok
  /-- 1: illegal encoding. -/
  | enc
  /-- 2: character not in the alphabet. -/
  | char
  /-- 3: input empty or its length not a multiple of 8. -/
  | len
  /-- 4: operand value out of range. -/
  | arg
  /-- 5: push after END. -/
  | seq
  /-- 6: a coordinate wrapped. -/
  | wrap
  deriving DecidableEq, Repr

/-- A response `(ST, DATA)` (R200). -/
structure Response where
  status : Status
  data : Word
  deriving DecidableEq, Repr

/-- What the host can do (R8): issue a command word, or assert reset (R230, R232). -/
inductive HostAction where
  | command (w : Word)
  | reset
  deriving DecidableEq, Repr

/-- The registers of R21 (ID is a constant, `Config.idValue`, log entry 9), then the model's own two
fields for the host interface (log entries 1 and 2). -/
structure State where
  /-- ACC: pending bits, right-aligned (R22). -/
  acc : BitVec 12
  /-- CNT: the number of pending bits (R23). -/
  cnt : BitVec 4
  /-- INCNT: input characters and symbols taken (R24). -/
  incnt : BitVec 32
  /-- BYTECNT: bytes emitted (R25). -/
  bytecnt : BitVec 32
  /-- ENDED: END has been executed (R26). -/
  ended : Bool
  /-- DROP: bits discarded by the last END (R27). -/
  drop : BitVec 4
  /-- STATUS.ERR: the sticky error bits (R28). -/
  err : BitVec 6
  /-- CX: circle center x, two's complement (R29). -/
  cx : BitVec 16
  /-- CY: circle center y, two's complement (R30). -/
  cy : BitVec 16
  /-- R: circle radius, unsigned (R31). -/
  r : BitVec 15
  /-- NFRAMES: total frame count (R32). -/
  nframes : BitVec 24
  /-- LASTANG: angle of the last mapped point (R33). -/
  lastang : Angle
  /-- The host actions not yet taken, oldest first (R8, R240). -/
  pending : List HostAction
  /-- The responses delivered so far, oldest first (R200, R240). -/
  responses : List Response
  deriving DecidableEq, Repr

/-- No step of RPK58 stops with a fault (R207, R209), so there is no reason to name: this type has no
value, and nothing raises it. Safe: the spec itself excludes the outcome. -/
inductive Fault where
  deriving DecidableEq, Repr

/-- Why `exec` could refuse a command. -/
inductive Refusal where
  /-- Raised only by an arm of `exec` for a command that has no meaning yet; no arm does. Safe: the
  machine would stop where the hardware goes on. -/
  | notModelled (mnemonic : String)
  deriving DecidableEq, Repr

/-- The state after reset: every register at the value R230 gives, nothing issued, nothing answered. -/
def State.reset : State where
  acc := 0#12
  cnt := 0#4
  incnt := 0#32
  bytecnt := 0#32
  ended := false
  drop := 0#4
  err := 0#6
  cx := 0#16
  cy := 0#16
  r := 0#15
  nframes := 0#24
  lastang := 0#16
  pending := []
  responses := []

end Sys2Proof.Machine
end

