-- ==== Sys2Proof/Machine/Flags.lean ====
section
/-! DEFINITION. The status codes and the STATUS register: its sticky bits are the block's only flags
(spec/10_state.md R28, R37; spec/60_exceptions.md R201, R202). -/

namespace Sys2Proof.Machine

/-- The 4-bit code of a status (R201). -/
def Status.code : Status → BitVec 4
  | .ok => 0#4
  | .enc => 1#4
  | .char => 2#4
  | .len => 3#4
  | .arg => 4#4
  | .seq => 5#4
  | .wrap => 6#4

/-- The sticky bits a response sets: bit e-1 for the status code e, none for OK (R28, R202). -/
def stickyBits (st : Status) : BitVec 6 :=
  match st.code.toNat with
  | 0 => 0#6
  | e + 1 => 1#6 <<< e

/-- STATUS as RDREG 0 reads it: 23 zeros, ENDED, 2 zeros, the sticky bits (R28, R181). -/
def statusWord (s : State) : Word := 0#23 ++ BitVec.ofBool s.ended ++ 0#2 ++ s.err

/-- STATUS[5:0] with the bits of a mask cleared (R182). -/
def clearSticky (err mask : BitVec 6) : BitVec 6 := err &&& ~~~mask

/-- The status of the length check of END (R116): `InvalidInputLength` for an empty input or one whose
length is not a multiple of 8. -/
def lengthStatus (incnt : BitVec 32) : Status :=
  if incnt.toNat = 0 ∨ incnt.toNat % Config.lengthMultiple ≠ 0 then .len else .ok

/-- A coordinate within the 16-bit two's-complement range (R148). -/
def coordFits (v : Int) : Bool := decide (-32768 ≤ v) && decide (v ≤ 32767)

/-- The status of a mapped point: WRAP where a coordinate leaves the 16-bit range (R148). -/
def pointStatus (xs ys : Int) : Status :=
  if coordFits xs && coordFits ys then .ok else .wrap

end Sys2Proof.Machine
end

