-- ==== Sys2Proof/Machine/Operands.lean ====
section
/-! DEFINITION. What an operand stands for: a character's symbol (spec/10_state.md R35), a slot's base angle
(R36), the rotation offset of a frame and the angle MAPS maps (spec/41_mapper.md R145, R149). -/

namespace Sys2Proof.Machine

/-- The alphabet's character codes in index order 0 to 31: plus, minus, equals, A to Z, underscore, the
two braces (R35). -/
def alphabet : List Byte :=
  [0x2B#8, 0x2D#8, 0x3D#8]
    ++ [0x41#8, 0x42#8, 0x43#8, 0x44#8, 0x45#8, 0x46#8, 0x47#8, 0x48#8, 0x49#8]
    ++ [0x4A#8, 0x4B#8, 0x4C#8, 0x4D#8, 0x4E#8, 0x4F#8, 0x50#8, 0x51#8, 0x52#8]
    ++ [0x53#8, 0x54#8, 0x55#8, 0x56#8, 0x57#8, 0x58#8, 0x59#8, 0x5A#8]
    ++ [0x5F#8, 0x7B#8, 0x7D#8]

/-- The position of a code in a list of codes, counted from `n`. -/
def positionFrom (c : Byte) : List Byte → Nat → Option Nat
  | [], _ => none
  | x :: xs, n => if x = c then some n else positionFrom c xs (n + 1)

/-- `ALPHA(c)`: the symbol of a character code, its 0-based position in the alphabet, or absent
(R35, R115). -/
def alpha (c : Byte) : Option Symbol := (positionFrom c alphabet 0).map (BitVec.ofNat 5)

/-- `BASE_DEG`, slot 0 to 7, in half degrees (R9, R36). -/
def baseHalfDegrees : List Int := [-225, -135, -45, 45, 135, 225, 315, -315]

/-- `BASE[i] = (BASE_DEG[i] * 65536 / 360) mod 65536`; the division is exact (R36). -/
def baseAngle (slot : BitVec 3) : Angle :=
  BitVec.ofInt 16 (baseHalfDegrees.getD slot.toNat 0 * (Config.fullTurn : Int) / 720)

/-- `OFF = (FRM * 8192) div NFRAMES` (R149). -/
def rotationOffset (frm nframes : BitVec 24) : Nat :=
  frm.toNat * Config.rotationSpan / nframes.toNat

/-- The angle at which MAPS maps a slot: `(BASE[SLOT] - OFF) mod 65536` (R145, R149). -/
def slotAngle (slot : BitVec 3) (frm nframes : BitVec 24) : Angle :=
  BitVec.ofInt 16 ((baseAngle slot).toNat - (rotationOffset frm nframes : Int))

/-- The frame indices MAPS accepts: NFRAMES is not 0 and FRM is below it (R145). -/
def frameInRange (frm nframes : BitVec 24) : Bool :=
  decide (nframes.toNat ≠ 0) && decide (frm.toNat < nframes.toNat)

end Sys2Proof.Machine
end

