-- ==== Sys2Proof/Machine/Trig.lean ====
section
/-! DEFINITION. The fixed-point cosine and sine of spec/41_mapper.md R147, `nint(16384 * cos(2π a / 65536))`
and the same for sin, computed exactly enough on integers (log entry 5). For a first-quadrant angle the
cosine is the sum of the first ten terms of its power series at the rational number
`k * 3.14159265358979323846 / 32768`; the other quadrants follow by the symmetries of R150. -/

namespace Sys2Proof.Machine

/-- A rational value of π, times `piDen`: twenty decimals, rounded down. -/
def piNum : Nat := 314159265358979323846

/-- The denominator of `piNum`. -/
def piDen : Nat := 10 ^ 20

/-- 18 factorial. -/
def fact18 : Nat := 6402373705728000

/-- `18! / (2n)!`, the coefficients of the cosine series over the common denominator 18 factorial. -/
def cosCoeff : Nat → Nat
  | 0 => 6402373705728000
  | 1 => 3201186852864000
  | 2 => 266765571072000
  | 3 => 8892185702400
  | 4 => 158789030400
  | 5 => 1764322560
  | 6 => 13366080
  | 7 => 73440
  | 8 => 306
  | 9 => 1
  | _ => 0

/-- `18! / (2n)! * u^n * v^(9-n)`: the n-th term of the cosine series of an angle x with
`x ^ 2 = u / v`, over the common denominator `18! * v^9` and without its sign. -/
def cosTerm (u v n : Nat) : Nat := cosCoeff n * u ^ n * v ^ (9 - n)

/-- The terms of the series with a plus sign. -/
def cosEven (u v : Nat) : Nat :=
  cosTerm u v 0 + cosTerm u v 2 + cosTerm u v 4 + cosTerm u v 6 + cosTerm u v 8

/-- The terms of the series with a minus sign. -/
def cosOdd (u v : Nat) : Nat :=
  cosTerm u v 1 + cosTerm u v 3 + cosTerm u v 5 + cosTerm u v 7 + cosTerm u v 9

/-- The integer nearest to `num / den`, for `den > 0`. -/
def nearest (num : Int) (den : Nat) : Int := (2 * num + den) / (2 * den : Nat)

/-- `nint(16384 * cos(π k / 32768))` for `0 ≤ k ≤ 16384`, the first quadrant. -/
def cosQuarter (k : Nat) : Int :=
  let u := (k * piNum) ^ 2
  let v := (32768 * piDen) ^ 2
  nearest ((Config.trigOne : Int) * ((cosEven u v : Int) - (cosOdd u v : Int)))
    (fact18 * v ^ 9)

/-- COSQ (R147), from the values of the first quadrant (R150). -/
def cosq (a : Angle) : Int :=
  let n := a.toNat
  if n ≤ 16384 then cosQuarter n
  else if n ≤ 32768 then -cosQuarter (32768 - n)
  else if n ≤ 49152 then -cosQuarter (n - 32768)
  else cosQuarter (65536 - n)

/-- SINQ (R147): the sine of an angle is the cosine of the angle a quarter turn before it (R150). -/
def sinq (a : Angle) : Int := cosq (a - 16384#16)

end Sys2Proof.Machine
end

