-- ==== Sys2Proof/Machine/Ops.lean ====
section
/-! DEFINITION. The shared operations: answering a command (spec/00_scope.md R13, spec/60_exceptions.md R202),
which is this block's whole form of taking an exception (R207: there are no traps, R208: no return),
ACCEPT (spec/40_repacker.md R113), ending a message (R116), POINT (spec/41_mapper.md R148), reading a
register (spec/42_control.md R181), reset (spec/70_reset_and_hazards.md R230) and taking a host action. -/

namespace Sys2Proof.Machine

/-- `respond(st, data)` (R13): the response is delivered and the sticky bit of a non-OK status is set,
as part of the same command (R202). -/
def respond (st : Status) (data : Word) (s : State) : State :=
  { s with err := s.err ||| stickyBits st, responses := s.responses ++ [⟨st, data⟩] }

/-- `fail(st)`: `respond(st, 0)` with the sticky bit (R13, R203). -/
def fail (st : Status) (s : State) : State := respond st 0#32 s

/-- `INCNT <- wrap32(INCNT + 1)` (R24, R113, R114). -/
def countItem (s : State) : State := { s with incnt := s.incnt + 1#32 }

/-- The first 8 of `c` pending bits `t`, first bit as bit 7 (R64, R113). -/
def firstByte (t c : Nat) : Nat := t / 2 ^ (c - 8)

/-- ACCEPT(sym) (R113). Results are cut to the registers' widths, which matters only for register
contents no run reaches (log entry 6). -/
def accept (sym : Symbol) (s : State) : State :=
  let s := countItem s
  let t := s.acc.toNat * 32 + sym.toNat
  let c := s.cnt.toNat + 5
  if 8 ≤ c then
    respond .ok (BitVec.ofNat 32 (0x100 + firstByte t c))
      { s with
        acc := BitVec.ofNat 12 (t % 2 ^ (c - 8))
        cnt := BitVec.ofNat 4 (c - 8)
        bytecnt := s.bytecnt + 1#32 }
  else
    respond .ok 0#32 { s with acc := BitVec.ofNat 12 t, cnt := BitVec.ofNat 4 c }

/-- CLR's effect on the registers (R110): the re-packer's registers and the sticky bits to 0. -/
def clearMessage (s : State) : State :=
  { s with
    acc := 0#12, cnt := 0#4, incnt := 0#32, bytecnt := 0#32
    ended := false, drop := 0#4, err := 0#6 }

/-- END's effect on the registers (R116): once per message, the trailing remainder is discarded. -/
def endMessage (s : State) : State :=
  if s.ended then s else { s with drop := s.cnt, acc := 0#12, cnt := 0#4, ended := true }

/-- `c + ((q * R + 8192) >> 14)`: one coordinate before it is wrapped, with halves rounded upward; the
shift is floor division by 16384 (R12, R148). -/
def coordinate (c : BitVec 16) (q : Int) (r : BitVec 15) : Int :=
  c.toInt + (q * (r.toNat : Int) + 8192) / 16384

/-- The response data of a point, `{Y[15:0], X[15:0]}`, each coordinate wrapped (R69, R148). -/
def pointData (xs ys : Int) : Word := BitVec.ofInt 16 ys ++ BitVec.ofInt 16 xs

/-- POINT(a) (R148): LASTANG is written and the point delivered, wrapped or not. -/
def point (a : Angle) (s : State) : State :=
  let xs := coordinate s.cx (cosq a) s.r
  let ys := coordinate s.cy (sinq a) s.r
  respond (pointStatus xs ys) (pointData xs ys) { s with lastang := a }

/-- PEND as RDREG 3 reads it: ACC in bits 11:0, CNT in 19:16, DROP in 27:24, the others 0 (R181). -/
def pendWord (s : State) : Word := 0#4 ++ s.drop ++ 0#4 ++ s.cnt ++ 0#4 ++ s.acc

/-- REGVAL(IDX) (R181); none for the reserved indices 10 to 15. -/
def regval (idx : BitVec 4) (s : State) : Option Word :=
  match idx.toNat with
  | 0 => some (statusWord s)
  | 1 => some s.incnt
  | 2 => some s.bytecnt
  | 3 => some (pendWord s)
  | 4 => some (s.cx.signExtend 32)
  | 5 => some (s.cy.signExtend 32)
  | 6 => some (s.r.zeroExtend 32)
  | 7 => some (s.nframes.zeroExtend 32)
  | 8 => some Config.idValue
  | 9 => some (s.lastang.zeroExtend 32)
  | _ => none

/-- The reset of R230: every register to its reset value and no response. What the host has still to do
and what it has already received are not the block's registers and stay (log entries 1, 2 and 8). -/
def takeReset (s : State) : State :=
  { State.reset with pending := s.pending, responses := s.responses }

/-- `execute(Illegal) = fail(ENC)` (R86), with no other effect (R84, R85). -/
def execIllegal (s : State) : Host.Outcome State Fault Refusal := .next (fail .enc s)

/-- With no host action the block waits and holds its state (R217, R233; log entry 3). -/
def waitForHost (s : State) : Host.Outcome State Fault Refusal := .next s

end Sys2Proof.Machine
end

