-- ==== Sys2Proof/Machine/Control.lean ====
section
/-! DEFINITION. The control commands NOP, RDREG and ECLR (spec/42_control.md R180 to R182). The reserved-field
check that precedes each command (spec/00_scope.md R14) is the decoder's (log entry 14). -/

namespace Sys2Proof.Machine

/-- NOP (R180). -/
def execNop (s : State) : Host.Outcome State Fault Refusal := .next (respond .ok 0#32 s)

/-- RDREG (R181): the register's value as the previous command left it; ARG for 10 to 15. -/
def execRdreg (idx : BitVec 4) (s : State) : Host.Outcome State Fault Refusal :=
  match regval idx s with
  | none => .next (fail .arg s)
  | some v => .next (respond .ok v s)

/-- ECLR (R182): the response is STATUS before the clearing. -/
def execEclr (mask : BitVec 6) (s : State) : Host.Outcome State Fault Refusal :=
  .next (respond .ok (statusWord s) { s with err := clearSticky s.err mask })

end Sys2Proof.Machine
end

