-- ==== Sys2Proof/Machine/Mapper.lean ====
section
/-! DEFINITION. The mapper commands SETCX, SETCY, SETR, SETN, MAPA and MAPS (spec/41_mapper.md R140 to R145). -/

namespace Sys2Proof.Machine

/-- SETCX (R140). -/
def execSetcx (val : BitVec 16) (s : State) : Host.Outcome State Fault Refusal :=
  .next (respond .ok 0#32 { s with cx := val })

/-- SETCY (R141). -/
def execSetcy (val : BitVec 16) (s : State) : Host.Outcome State Fault Refusal :=
  .next (respond .ok 0#32 { s with cy := val })

/-- SETR (R142). -/
def execSetr (rad : BitVec 15) (s : State) : Host.Outcome State Fault Refusal :=
  .next (respond .ok 0#32 { s with r := rad })

/-- SETN (R143): 0 is accepted and held. -/
def execSetn (nf : BitVec 24) (s : State) : Host.Outcome State Fault Refusal :=
  .next (respond .ok 0#32 { s with nframes := nf })

/-- MAPA (R144). -/
def execMapa (ang : Angle) (s : State) : Host.Outcome State Fault Refusal := .next (point ang s)

/-- MAPS (R145): ARG for a frame index NFRAMES does not allow, LASTANG included unchanged. -/
def execMaps (slot : BitVec 3) (frm : BitVec 24) (s : State) : Host.Outcome State Fault Refusal :=
  if frameInRange frm s.nframes then .next (point (slotAngle slot frm s.nframes) s)
  else .next (fail .arg s)

end Sys2Proof.Machine
end

