-- ==== Sys2Proof/Machine/Repacker.lean ====
section
/-! DEFINITION. The re-packer commands CLR, PUSHS, PUSHC and END (spec/40_repacker.md R110 to R116), their
checks in the order of spec/60_exceptions.md R205. -/

namespace Sys2Proof.Machine

/-- CLR (R110). -/
def execClr (s : State) : Host.Outcome State Fault Refusal :=
  .next (respond .ok 0#32 (clearMessage s))

/-- PUSHS (R112). -/
def execPushs (sym : Symbol) (s : State) : Host.Outcome State Fault Refusal :=
  if s.ended then .next (fail .seq s) else .next (accept sym s)

/-- PUSHC (R114): a character absent from the alphabet still counts toward the input length. -/
def execPushc (chr : Byte) (s : State) : Host.Outcome State Fault Refusal :=
  if s.ended then .next (fail .seq s)
  else
    match alpha chr with
    | none => .next (fail .char (countItem s))
    | some sym => .next (accept sym s)

/-- END (R116): the length check reports on the ended message, with BYTECNT either way. -/
def execEnd (s : State) : Host.Outcome State Fault Refusal :=
  .next (respond (lengthStatus s.incnt) s.bytecnt (endMessage s))

end Sys2Proof.Machine
end

