-- ==== Sys2Proof/Machine/Dispatch.lean ====
section
/-! DEFINITION. One arm per command of spec/30_encoding.md R82, each a direct call of its meaning. -/

namespace Sys2Proof.Machine

/-- Executes one legal command: the response and every register effect together (R70). -/
def exec (i : Instr) (s : State) : Host.Outcome State Fault Refusal :=
  match i with
  | .nop => Sys2Proof.Machine.execNop s
  | .clr => Sys2Proof.Machine.execClr s
  | .pushs sym => Sys2Proof.Machine.execPushs sym s
  | .pushc chr => Sys2Proof.Machine.execPushc chr s
  | .endMsg => Sys2Proof.Machine.execEnd s
  | .setcx val => Sys2Proof.Machine.execSetcx val s
  | .setcy val => Sys2Proof.Machine.execSetcy val s
  | .setr rad => Sys2Proof.Machine.execSetr rad s
  | .setn nf => Sys2Proof.Machine.execSetn nf s
  | .mapa ang => Sys2Proof.Machine.execMapa ang s
  | .maps slot frm => Sys2Proof.Machine.execMaps slot frm s
  | .rdreg idx => Sys2Proof.Machine.execRdreg idx s
  | .eclr mask => Sys2Proof.Machine.execEclr mask s

end Sys2Proof.Machine
end

