-- ==== Sys2Proof/Machine/Step.lean ====
section
/-! DEFINITION. One step: the block takes the host's next action (spec/00_scope.md R8), to completion
(R7, R70). There is no program counter (R20): the next command is the next word the host issues. -/

namespace Sys2Proof.Machine

/-- The word's command, or `fail(ENC)` for an illegal word (R86). -/
def runWord (w : Word) (s : State) : Host.Outcome State Fault Refusal :=
  match decode w with
  | .ok i => exec i s
  | .error _ => execIllegal s

/-- One step of the block. -/
def step (s : State) : Host.Outcome State Fault Refusal :=
  match s.pending with
  | [] => waitForHost s
  | .command w :: rest => runWord w { s with pending := rest }
  | .reset :: rest => .next (takeReset { s with pending := rest })

/-- The host issues the word as its next command (log entry 4). -/
def State.withFetchWord (s : State) (_nbits w : Nat) : State :=
  { s with pending := .command (tableWord w) :: s.pending }

end Sys2Proof.Machine
end

