-- ==== Sys2Proof/Safety.lean ====
section
/-! DEFINITION. The terms claims about RPK58 use: the invariant of spec/10_state.md R22 to R27, the source's
pack and unpack (spec/40_repacker.md R111), messages and what they accept and emit (R111, R117 to R120),
the host's duty to discard an invalid message (R120)
and its frame commands (spec/41_mapper.md R152). No step stops (spec/60_exceptions.md R209), so every
run is safe in that sense; what a run must keep is `State.Inv`. -/

namespace Sys2Proof

/-- The re-packer commands (R77). -/
def Opcode.isRepacker : Opcode → Bool
  | .clr | .pushs | .pushc | .endMsg => true
  | .nop | .setcx | .setcy | .setr | .setn | .mapa | .maps | .rdreg | .eclr => false

/-- The mapper commands (R77). -/
def Opcode.isMapper : Opcode → Bool
  | .setcx | .setcy | .setr | .setn | .mapa | .maps => true
  | .nop | .clr | .pushs | .pushc | .endMsg | .rdreg | .eclr => false

end Sys2Proof

namespace Sys2Proof.Machine

/-- What holds of the registers between commands: at most 7 bits pending (R23), none of ACC at position
CNT or above (R22), at most 7 bits dropped (R27); after END nothing is pending, and before it nothing
has been dropped (R26, R27, R116). -/
abbrev State.Inv (s : State) : Prop :=
  s.cnt.toNat ≤ 7 ∧ s.acc.toNat < 2 ^ s.cnt.toNat ∧ s.drop.toNat ≤ 7 ∧
    (s.ended = true → s.cnt = 0#4) ∧ (s.ended = false → s.drop = 0#4)

/-- The state with one more response delivered and every register as it was. -/
def State.reply (s : State) (st : Status) (data : Word) : State :=
  { s with responses := s.responses ++ [⟨st, data⟩] }

/-- In every state whose next host action is the command word `w`, the step executes `i` at that state
with the action taken. -/
def wordRuns (w : Word) (i : Instr) : Prop :=
  ∀ (s : State) (rest : List HostAction), s.pending = .command w :: rest →
    step s = exec i { s with pending := rest }

/-- In every state whose next host action is the word `w`, the step responds (ENC, 0), sets STATUS bit 0
and changes nothing else (R84, R85). -/
def wordIllegal (w : Word) : Prop :=
  ∀ (s : State) (rest : List HostAction), s.pending = .command w :: rest →
    step s = .next ({ s with pending := rest, err := s.err ||| 0b000001#6 }.reply .enc 0#32)

/-! ### The source's codec -/

/-- The `w` low bits of `v`, most-significant first (R11, R63). -/
def bitsMsb (w v : Nat) : List Bool := (List.range w).map fun k => v.testBit (w - 1 - k)

/-- `BitPacker.pack`: each symbol's bits, most-significant bit first, in order (R111). -/
def pack (w : Nat) (symbols : List Nat) : List Bool := symbols.flatMap (bitsMsb w)

/-- `value = (value << 1) | bit` over a group, first bit first (R64). -/
def foldBits (bits : List Bool) : Nat := bits.foldl (fun v b => 2 * v + b.toNat) 0

/-- Unpacking with the bits `group` of the current group already read. -/
def unpackFrom (w : Nat) : List Bool → List Bool → List Nat
  | _, [] => []
  | group, b :: bits =>
    if (group ++ [b]).length = w then foldBits (group ++ [b]) :: unpackFrom w [] bits
    else unpackFrom w (group ++ [b]) bits

/-- `BitPacker.unpack`: consecutive groups of `w` bits, each folded most-significant bit first, the
trailing remainder dropped (R64, R111). -/
def unpack (w : Nat) (bits : List Bool) : List Nat := unpackFrom w [] bits

/-! ### Messages -/

/-- The pending bits: the low CNT bits of ACC, most-significant first (R22). -/
def pendingBits (s : State) : List Bool := bitsMsb s.cnt.toNat s.acc.toNat

/-- The re-packer at the start of a message, as after CLR or reset (R110, R111, R230). -/
def messageStart (s : State) : Prop :=
  s.acc = 0#12 ∧ s.cnt = 0#4 ∧ s.incnt = 0#32 ∧ s.bytecnt = 0#32 ∧ s.ended = false ∧ s.drop = 0#4

/-- A word that is neither CLR nor END: it leaves the message open (R111). -/
def staysInMessage (w : Word) : Prop := decode w ≠ .ok .clr ∧ decode w ≠ .ok .endMsg

/-- The symbol a word adds to the symbol sequence of an open message (R111). -/
def wordSymbols (w : Word) : List Nat :=
  match decode w with
  | .ok (.pushs sym) => [sym.toNat]
  | .ok (.pushc chr) => ((alpha chr).map BitVec.toNat).toList
  | _ => []

/-- The symbol sequence of a message's words, in command order (R111). -/
def messageSymbols (ws : List Word) : List Nat := ws.flatMap wordSymbols

/-- The byte a push's response carries: data bit 8 marks it, data bits 7:0 are it (R69, R111). -/
def wordBytes (w : Word) (r : Response) : List Nat :=
  match decode w with
  | .ok (.pushs _) | .ok (.pushc _) =>
    if r.status = .ok ∧ r.data.getLsbD 8 = true then [r.data.toNat % 256] else []
  | _ => []

/-- The byte sequence of a message's words and their responses, in command order (R111). -/
def messageBytes (ws : List Word) (rs : List Response) : List Nat :=
  (List.zipWith wordBytes ws rs).flatten

/-- The host issues the words, in order, after what it has already asked for. -/
def State.issue (s : State) (ws : List Word) : State :=
  { s with pending := s.pending ++ ws.map HostAction.command }

/-- The source's two user errors (R201). -/
inductive SourceError where
  | invalidInputLength
  | unknownCharacter
  deriving DecidableEq, Repr

/-- The source's composition up to the bytes: length check, translation, pack at 5, unpack at 8
(spec/70_reset_and_hazards.md R234, R206: the length is checked first). -/
def sourceBytes (cs : List Byte) : Except SourceError (List Nat) :=
  if cs.length = 0 ∨ cs.length % 8 ≠ 0 then .error .invalidInputLength
  else if cs.all fun c => (alpha c).isSome then
    .ok (unpack 8 (pack 5 (cs.filterMap fun c => (alpha c).map BitVec.toNat)))
  else .error .unknownCharacter

/-! ### Message validity: the host's obligation (R120) -/

/-- A push, legal or not: PUSHS or PUSHC by its opcode, whatever its other bits (R82, R112, R114). -/
def isPush (w : Word) : Bool :=
  match opcodeOf (opField w) with
  | some .pushs | some .pushc => true
  | _ => false

/-- The responses of a message's pushes, illegal ones included, in command order. -/
def pushResponses (ws : List Word) (rs : List Response) : List Response :=
  ((List.zip ws rs).filter fun wr => isPush wr.1).map Prod.snd

/-- The bytes of a message are valid only if END responded OK and every PUSHS and PUSHC responded OK
(R120): a push that responded ENC or CHAR left its item out. -/
def messageValid (ws : List Word) (rs : List Response) (atEnd : Response) : Bool :=
  decide (atEnd.status = .ok) && (pushResponses ws rs).all fun r => decide (r.status = .ok)

/-- The source's diagnosis of an invalid message (R120): LEN at END first, then a CHAR at a push; none
where neither occurred, so that only an illegal push made the message invalid. -/
def hostDiagnosis (ws : List Word) (rs : List Response) (atEnd : Response) : Option SourceError :=
  if atEnd.status = .len then some .invalidInputLength
  else if (pushResponses ws rs).any fun r => decide (r.status = .char) then some .unknownCharacter
  else none

/-- What the host reads from a message's responses (R120): the bytes the pushes carried if the message is
valid, else no byte at all but the diagnosis. -/
def hostResult (ws : List Word) (rs : List Response) (atEnd : Response) :
    Except (Option SourceError) (List Nat) :=
  if messageValid ws rs atEnd then .ok (messageBytes ws rs) else .error (hostDiagnosis ws rs atEnd)

/-- The validity a host may still claim that has kept END's response alone and reads STATUS after it: bits
1 (CHAR) and 0 (ENC) must be clear (R120). -/
def statusValid (atEnd : Response) (status : Word) : Bool :=
  decide (atEnd.status = .ok) && !status.getLsbD 1 && !status.getLsbD 0

/-- The source's diagnosis from END's response and STATUS (R120): LEN first, else CHAR when bit 1 is set. -/
def statusDiagnosis (atEnd : Response) (status : Word) : Option SourceError :=
  if atEnd.status = .len then some .invalidInputLength
  else if status.getLsbD 1 then some .unknownCharacter
  else none

/-- The words of `PUSHC` for a string of character codes (R89, R90). -/
def pushWords (cs : List Byte) : List Word := cs.map fun c => encode (.pushc c)

/-! ### Frames -/

/-- The slots of a byte's set bits in bit-index order: slot i is byte bit 7-i (R36, R152). -/
def byteSlots (b : Byte) : List Nat := (List.range 8).filter fun i => b.getLsbD (7 - i)

/-- The host's MAPS commands for byte `b` at frame `f`, in increasing slot order (R152). -/
def frameWords (b : Byte) (f : BitVec 24) : List Word :=
  (byteSlots b).map fun i => encode (.maps (BitVec.ofNat 3 i) f)

end Sys2Proof.Machine
end

