-- ==== Sys2Proof/Certificates/Slice0/Obligations.lean ====
section
/-! DEFINITION. The statements about RPK58 for the provers. Each docstring names the rules of spec/ it
formalises. `State.reply st d` is the state with the response (st, d) delivered and every register kept,
so an equation of the form `exec i s = .next (t.reply st d)` gives a command's whole effect: every
register the record does not name is unchanged. -/

section
open Sys2Proof Sys2Proof.Machine

/-! ### Reset and the host -/

/-- R231: power-on performs the reset of R230; every register the rule names has its value, and ID
reads as its constant. Nothing is issued or answered yet (log entries 1 and 2). -/
def Obligations.ResetRegisterValues : Prop :=
  State.reset.acc = 0#12 ∧ State.reset.cnt = 0#4 ∧ State.reset.incnt = 0#32 ∧
  State.reset.bytecnt = 0#32 ∧ State.reset.ended = false ∧ State.reset.drop = 0#4 ∧
  State.reset.err = 0#6 ∧ State.reset.cx = 0#16 ∧ State.reset.cy = 0#16 ∧ State.reset.r = 0#15 ∧
  State.reset.nframes = 0#24 ∧ State.reset.lastang = 0#16 ∧
  exec (.rdreg 8#4) State.reset = .next (State.reset.reply .ok 0x52503538#32)

/-- R230: when the host asserts reset between two commands, every register takes its reset value, ID
reads as before, and no response is produced. -/
def Obligations.ResetSetsEveryRegister : Prop :=
  ∀ (s : State) (rest : List HostAction), s.pending = .reset :: rest →
    ∃ t, step s = .next t ∧ t.pending = rest ∧ t.responses = s.responses ∧
      t.acc = 0#12 ∧ t.cnt = 0#4 ∧ t.incnt = 0#32 ∧ t.bytecnt = 0#32 ∧ t.ended = false ∧
      t.drop = 0#4 ∧ t.err = 0#6 ∧ t.cx = 0#16 ∧ t.cy = 0#16 ∧ t.r = 0#15 ∧ t.nframes = 0#24 ∧
      t.lastang = 0#16 ∧ exec (.rdreg 8#4) t = .next (t.reply .ok 0x52503538#32)

/-- R233: from the reset registers MAPA gives the point (0, 0) for every angle, and MAPS responds ARG
for every slot and frame. -/
def Obligations.MapperFromReset : Prop :=
  (∀ a : Angle, exec (.mapa a) State.reset =
    .next ({ State.reset with lastang := a }.reply .ok 0#32)) ∧
  (∀ (slot : BitVec 3) (frm : BitVec 24), exec (.maps slot frm) State.reset =
    .next ({ State.reset with err := 0b001000#6 }.reply .arg 0#32))

/-- The model's choice, log entry 3 (from R217, R233): with no host action pending a step changes
nothing. -/
def Obligations.WaitsForTheHost : Prop :=
  ∀ s : State, s.pending = [] → step s = .next s

/-- R8, R20, R86: when the host's next action is a word that decodes to a command, the step is `exec` of
that command with the action taken, and nothing else. -/
def Obligations.StepRunsDecodedCommand : Prop :=
  ∀ (s : State) (w : Word) (rest : List HostAction) (i : Instr),
    s.pending = .command w :: rest → decode w = .ok i → step s = exec i { s with pending := rest }

/-- R200, R209: every word in every state has a next state, takes exactly the one action from the host,
and produces exactly one response, whose status code is at most 6. -/
def Obligations.EveryWordIsAnsweredOnce : Prop :=
  ∀ (s : State) (w : Word) (rest : List HostAction), s.pending = .command w :: rest →
    ∃ (t : State) (r : Response), step s = .next t ∧ t.pending = rest ∧
      t.responses = s.responses ++ [r] ∧ r.status.code.toNat ≤ 6

/-- R72, R240: a run over two lists of host actions is the run over the first followed by the run over
the second, and a run takes every action, answering exactly its commands, in order after what was
answered before. -/
def Obligations.RunsTakeActionsInOrder : Prop :=
  ∀ (s : State) (as bs : List HostAction),
    ∃ t u : State,
      Host.Core.run core as.length { s with pending := as ++ bs } = .next t ∧ t.pending = bs ∧
      (∃ rs : List Response, t.responses = s.responses ++ rs ∧
        rs.length = (as.filter fun a => a != .reset).length) ∧
      Host.Core.run core as.length { s with pending := as } = .next u ∧
      t = { u with pending := bs } ∧
      Host.Core.run core (as.length + bs.length) { s with pending := as ++ bs } =
        Host.Core.run core bs.length { u with pending := bs }

/-! ### Encoding -/

/-- R84, R85: a word with a reserved opcode, or with a reserved bit of its format set, responds (ENC, 0),
sets STATUS bit 0 and has no other effect in any state; every other word is a command. The list gives
each opcode's reserved bits as R81 does. -/
def Obligations.IllegalWordsRespondEnc : Prop :=
  let reserved : List (BitVec 4 × Word) :=
    [(0x0#4, 0x0FFFFFFF#32), (0x1#4, 0x0FFFFFFF#32), (0x2#4, 0x0FFFFFE0#32), (0x3#4, 0x0FFFFF00#32)]
      ++ [(0x4#4, 0x0FFFFFFF#32), (0x5#4, 0x0FFF0000#32), (0x6#4, 0x0FFF0000#32), (0x7#4, 0x0FFF8000#32)]
      ++ [(0x8#4, 0x0F000000#32), (0x9#4, 0x0FFF0000#32), (0xA#4, 0x08000000#32), (0xB#4, 0x0FFFFFF0#32)]
      ++ [(0xC#4, 0x0FFFFFC0#32)]
  let isIllegal : Word → Prop := fun w =>
    0xD ≤ w.toNat / 2 ^ 28 ∨ ∃ row ∈ reserved, w.toNat / 2 ^ 28 = row.1.toNat ∧ w &&& row.2 ≠ 0#32
  ∀ w : Word, (isIllegal w → wordIllegal w) ∧ (¬ isIllegal w → ∃ i, decode w = .ok i)

/-- R84, R82: a word decodes to a command of an opcode exactly if `(w & mask) == match` for that
opcode's row of the opcode table; so no word is two commands. -/
def Obligations.DecodeFollowsOpcodeTable : Prop :=
  let table : List (Opcode × Word × Word) :=
    [(.nop, 0xFFFFFFFF#32, 0x00000000#32), (.clr, 0xFFFFFFFF#32, 0x10000000#32)]
      ++ [(.pushs, 0xFFFFFFE0#32, 0x20000000#32), (.pushc, 0xFFFFFF00#32, 0x30000000#32)]
      ++ [(.endMsg, 0xFFFFFFFF#32, 0x40000000#32), (.setcx, 0xFFFF0000#32, 0x50000000#32)]
      ++ [(.setcy, 0xFFFF0000#32, 0x60000000#32), (.setr, 0xFFFF8000#32, 0x70000000#32)]
      ++ [(.setn, 0xFF000000#32, 0x80000000#32), (.mapa, 0xFFFF0000#32, 0x90000000#32)]
      ++ [(.maps, 0xF8000000#32, 0xA0000000#32), (.rdreg, 0xFFFFFFF0#32, 0xB0000000#32)]
      ++ [(.eclr, 0xFFFFFFC0#32, 0xC0000000#32)]
  ∀ (w : Word) (op : Opcode),
    (∃ i, decode w = .ok i ∧ i.opcode = op) ↔ ∃ row ∈ table, row.1 = op ∧ w &&& row.2.1 = row.2.2

/-- R83: the operands of a decoded word are the unsigned integers of their fields, VAL the
two's-complement value of `w[15:0]`. -/
def Obligations.OperandsAreTheirFields : Prop :=
  let s16 : Nat → Int := fun v => if v % 65536 < 32768 then (v % 65536 : Nat) else (v % 65536 : Nat) - 65536
  ∀ (w : Word) (i : Instr), decode w = .ok i →
    match i with
    | .nop | .clr | .endMsg => True
    | .pushs sym => sym.toNat = w.toNat % 2 ^ 5
    | .pushc chr => chr.toNat = w.toNat % 2 ^ 8
    | .setcx val => val.toInt = s16 w.toNat
    | .setcy val => val.toInt = s16 w.toNat
    | .setr rad => rad.toNat = w.toNat % 2 ^ 15
    | .setn nf => nf.toNat = w.toNat % 2 ^ 24
    | .mapa ang => ang.toNat = w.toNat % 2 ^ 16
    | .maps slot frm => slot.toNat = w.toNat / 2 ^ 24 % 2 ^ 3 ∧ frm.toNat = w.toNat % 2 ^ 24
    | .rdreg idx => idx.toNat = w.toNat % 2 ^ 4
    | .eclr mask => mask.toNat = w.toNat % 2 ^ 6

/-- R81, R86: the word of a command decodes to that command, for every operand its fields admit. -/
def Obligations.EncodeThenDecode : Prop := ∀ i : Instr, decode (encode i) = .ok i

/-- R85, R86: a word that decodes to a command is that command's word, so each command has one word. -/
def Obligations.DecodeThenEncode : Prop :=
  ∀ (w : Word) (i : Instr), decode w = .ok i → encode i = w

/-- R86: the number of legal words of each opcode. -/
def Obligations.LegalWordCounts : Prop :=
  let count : Opcode → Nat := fun op => Nat.card { w : Word // ∃ i, decode w = .ok i ∧ i.opcode = op }
  count .nop = 1 ∧ count .clr = 1 ∧ count .endMsg = 1 ∧ count .pushs = 32 ∧ count .pushc = 256 ∧
  count .setcx = 65536 ∧ count .setcy = 65536 ∧ count .mapa = 65536 ∧ count .setr = 32768 ∧
  count .setn = 2 ^ 24 ∧ count .maps = 2 ^ 27 ∧ count .rdreg = 16 ∧ count .eclr = 64

/-- R91: the worked encodings, in both directions, and the illegal words. -/
def Obligations.WorkedEncodings : Prop :=
  decode 0x30000041#32 = .ok (.pushc 0x41#8) ∧ decode 0x2000001F#32 = .ok (.pushs 31#5) ∧
  decode 0x5000FFFF#32 = .ok (.setcx (-1#16)) ∧ decode 0x70000096#32 = .ok (.setr 150#15) ∧
  decode 0x80000005#32 = .ok (.setn 5#24) ∧ decode 0x90004000#32 = .ok (.mapa 16384#16) ∧
  decode 0xA3000001#32 = .ok (.maps 3#3 1#24) ∧ decode 0xA7FFFFFF#32 = .ok (.maps 7#3 16777215#24) ∧
  decode 0xB0000008#32 = .ok (.rdreg 8#4) ∧ decode 0xC000003F#32 = .ok (.eclr 0x3F#6) ∧
  assemble (.pushcChar 'A') = some [0x30000041#32] ∧ assemble (.pushs 31) = some [0x2000001F#32] ∧
  assemble (.setcx (-1)) = some [0x5000FFFF#32] ∧ assemble (.setr 150) = some [0x70000096#32] ∧
  assemble (.setn 5) = some [0x80000005#32] ∧ assemble (.mapa 16384) = some [0x90004000#32] ∧
  assemble (.maps 3 1) = some [0xA3000001#32] ∧ assemble (.maps 7 16777215) = some [0xA7FFFFFF#32] ∧
  assemble (.rdreg 8) = some [0xB0000008#32] ∧ assemble (.eclr 0x3F) = some [0xC000003F#32] ∧
  decode 0x20000020#32 = .error .reservedBits ∧ decode 0xA8000000#32 = .error .reservedBits ∧
  decode 0x00000001#32 = .error .reservedBits ∧ decode 0xD0000000#32 = .error .reservedOpcode

/-- R89: the word each operand form assembles to, for every operand in its range, and the refusal of
every operand outside it. The clause for a character operand (a code of at most 127 stands for itself, any
other is rejected) is the model's choice, PRESUMED in log entry 11. -/
def Obligations.AssemblerWords : Prop :=
  let field : Int → Word := BitVec.ofInt 32
  let accepts : AsmLine → Bool → Word → Prop := fun line ok w =>
    assemble line = if ok = true then some [w] else none
  accepts .nop true 0x00000000#32 ∧ accepts .clr true 0x10000000#32 ∧
  accepts .endMsg true 0x40000000#32 ∧
  (∀ v : Int, accepts (.pushs v) (decide (0 ≤ v ∧ v ≤ 31)) (0x20000000#32 ||| field v)) ∧
  (∀ v : Int, accepts (.pushc v) (decide (0 ≤ v ∧ v ≤ 255)) (0x30000000#32 ||| field v)) ∧
  (∀ c : Char, accepts (.pushcChar c) (decide (c.toNat ≤ 127)) (0x30000000#32 ||| field c.toNat)) ∧
  (∀ v : Int, accepts (.setcx v) (decide (-32768 ≤ v ∧ v ≤ 32767)) (0x50000000#32 ||| field (v % 65536))) ∧
  (∀ v : Int, accepts (.setcy v) (decide (-32768 ≤ v ∧ v ≤ 32767)) (0x60000000#32 ||| field (v % 65536))) ∧
  (∀ v : Int, accepts (.setr v) (decide (0 ≤ v ∧ v ≤ 32767)) (0x70000000#32 ||| field v)) ∧
  (∀ v : Int, accepts (.setn v) (decide (0 ≤ v ∧ v ≤ 16777215)) (0x80000000#32 ||| field v)) ∧
  (∀ v : Int, accepts (.mapa v) (decide (0 ≤ v ∧ v ≤ 65535)) (0x90000000#32 ||| field v)) ∧
  (∀ slot f : Int, accepts (.maps slot f) (decide (0 ≤ slot ∧ slot ≤ 7 ∧ 0 ≤ f ∧ f ≤ 16777215))
    (0xA0000000#32 ||| field slot <<< 24 ||| field f)) ∧
  (∀ v : Int, accepts (.rdreg v) (decide (0 ≤ v ∧ v ≤ 15)) (0xB0000000#32 ||| field v)) ∧
  (∀ v : Int, accepts (.eclr v) (decide (0 ≤ v ∧ v ≤ 63)) (0xC0000000#32 ||| field v)) ∧
  ([RegName.status, .incnt, .bytecnt, .pend, .cx, .cy, .r, .nframes, .id, .lastang].map
      fun n => assemble (.rdregName n)) =
    (List.range 10).map fun k => assemble (.rdreg k)

/-- R90: each pseudo-instruction is exactly its expansion. A character stands for its ASCII code (log
entry 11). -/
def Obligations.PseudoExpansions : Prop :=
  assemble (.pushstr []) = some [] ∧
  (∀ (c : Char) (cs : List Char), assemble (.pushstr (c :: cs)) =
    match assemble (.pushcChar c), assemble (.pushstr cs) with
    | some w, some ws => some (w ++ ws)
    | _, _ => none) ∧
  assemble .rdstat = assemble (.rdreg 0) ∧ assemble .clrerr = assemble (.eclr 0x3F) ∧
  (∀ x y : Int, assemble (.setc x y) =
    match assemble (.setcx x), assemble (.setcy y) with
    | some w, some ws => some (w ++ ws)
    | _, _ => none)

/-! ### Control commands -/

/-- R180: NOP is the all-zero word, responds (OK, 0) and changes no state; with any of bits 27:0 set it
responds ENC. -/
def Obligations.NopCommand : Prop :=
  wordRuns 0x00000000#32 .nop ∧
  (∀ w : Word, w.extractLsb' 28 4 = 0x0#4 → w.extractLsb' 0 28 ≠ 0#28 → wordIllegal w) ∧
  ∀ s : State, exec .nop s = .next (s.reply .ok 0#32)

/-- R181: RDREG responds with the register of each index 0 to 9, and ARG for 10 to 15; a successful RDREG
changes no register; a set bit of 27:4 responds ENC. -/
def Obligations.RdregCommand : Prop :=
  (∀ idx : BitVec 4, wordRuns (0xB0000000#32 ||| idx.setWidth 32) (.rdreg idx)) ∧
  (∀ w : Word, w.extractLsb' 28 4 = 0xB#4 → w.extractLsb' 4 24 ≠ 0#24 → wordIllegal w) ∧
  ∀ s : State,
    exec (.rdreg 0#4) s = .next (s.reply .ok
      (BitVec.ofNat 32 ((if s.ended = true then 2 ^ 8 else 0) + s.err.toNat))) ∧
    exec (.rdreg 1#4) s = .next (s.reply .ok s.incnt) ∧
    exec (.rdreg 2#4) s = .next (s.reply .ok s.bytecnt) ∧
    exec (.rdreg 3#4) s = .next (s.reply .ok
      (BitVec.ofNat 32 (s.acc.toNat + s.cnt.toNat * 2 ^ 16 + s.drop.toNat * 2 ^ 24))) ∧
    exec (.rdreg 4#4) s = .next (s.reply .ok (BitVec.ofInt 32 s.cx.toInt)) ∧
    exec (.rdreg 5#4) s = .next (s.reply .ok (BitVec.ofInt 32 s.cy.toInt)) ∧
    exec (.rdreg 6#4) s = .next (s.reply .ok (BitVec.ofNat 32 s.r.toNat)) ∧
    exec (.rdreg 7#4) s = .next (s.reply .ok (BitVec.ofNat 32 s.nframes.toNat)) ∧
    exec (.rdreg 8#4) s = .next (s.reply .ok 0x52503538#32) ∧
    exec (.rdreg 9#4) s = .next (s.reply .ok (BitVec.ofNat 32 s.lastang.toNat)) ∧
    ∀ idx : BitVec 4, 10 ≤ idx.toNat →
      exec (.rdreg idx) s = .next ({ s with err := s.err ||| 0b001000#6 }.reply .arg 0#32)

/-- R182: ECLR responds with STATUS as it was, clears the sticky bits its mask selects and changes
nothing else, ENDED included; a set bit of 27:6 responds ENC and clears nothing. -/
def Obligations.EclrCommand : Prop :=
  (∀ mask : BitVec 6, wordRuns (0xC0000000#32 ||| mask.setWidth 32) (.eclr mask)) ∧
  (∀ w : Word, w.extractLsb' 28 4 = 0xC#4 → w.extractLsb' 6 22 ≠ 0#22 → wordIllegal w) ∧
  ∀ (mask : BitVec 6) (s : State), exec (.eclr mask) s =
    .next ({ s with err := s.err &&& ~~~mask }.reply .ok
      (BitVec.ofNat 32 ((if s.ended = true then 2 ^ 8 else 0) + s.err.toNat)))

/-- R28, R181 and V7 of spec/93: STATUS bits 7:6 and 31:9 and PEND bits 15:12, 23:20 and 31:28 read as 0
in every state, and PEND bits 19 and 27 in every state that meets `State.Inv`. -/
def Obligations.ReservedBitsReadZero : Prop :=
  ∀ s : State,
    (∃ d, exec (.rdreg 0#4) s = .next (s.reply .ok d) ∧
      ∀ k, (k = 6 ∨ k = 7 ∨ 9 ≤ k) → d.getLsbD k = false) ∧
    (∃ d, exec (.rdreg 3#4) s = .next (s.reply .ok d) ∧
      (∀ k, (12 ≤ k ∧ k ≤ 15) ∨ (20 ≤ k ∧ k ≤ 23) ∨ 28 ≤ k → d.getLsbD k = false) ∧
      (s.Inv → d.getLsbD 19 = false ∧ d.getLsbD 27 = false))

/-! ### Re-packer commands -/

/-- R110: CLR sets the re-packer registers and the sticky bits to 0, responds (OK, 0) and keeps the
mapper's registers; with any of bits 27:0 set it responds ENC and clears nothing. -/
def Obligations.ClrCommand : Prop :=
  wordRuns 0x10000000#32 .clr ∧
  (∀ w : Word, w.extractLsb' 28 4 = 0x1#4 → w.extractLsb' 0 28 ≠ 0#28 → wordIllegal w) ∧
  ∀ s : State, exec .clr s =
    .next ({ s with
      acc := 0#12, cnt := 0#4, incnt := 0#32, bytecnt := 0#32
      ended := false, drop := 0#4, err := 0#6 }.reply .ok 0#32)

/-- R112: PUSHS responds SEQ after END, with nothing but STATUS bit 4 changed, and is ACCEPT of its symbol
(`accept`, which `AcceptProcedure` gives) otherwise; a set bit of 27:5 responds ENC. -/
def Obligations.PushsCommand : Prop :=
  (∀ sym : Symbol, wordRuns (0x20000000#32 ||| sym.setWidth 32) (.pushs sym)) ∧
  (∀ w : Word, w.extractLsb' 28 4 = 0x2#4 → w.extractLsb' 5 23 ≠ 0#23 → wordIllegal w) ∧
  ∀ (sym : Symbol) (s : State),
    (s.ended = true → exec (.pushs sym) s =
      .next ({ s with err := s.err ||| 0b010000#6 }.reply .seq 0#32)) ∧
    (s.ended = false → exec (.pushs sym) s = .next (accept sym s))

/-- R114: PUSHC responds SEQ after END; else CHAR for a character absent from the alphabet, counting it in
INCNT and setting STATUS bit 1 and nothing else; else it is ACCEPT of the character's symbol; a set bit of
27:8 responds ENC. -/
def Obligations.PushcCommand : Prop :=
  (∀ chr : Byte, wordRuns (0x30000000#32 ||| chr.setWidth 32) (.pushc chr)) ∧
  (∀ w : Word, w.extractLsb' 28 4 = 0x3#4 → w.extractLsb' 8 20 ≠ 0#20 → wordIllegal w) ∧
  ∀ (chr : Byte) (s : State),
    (s.ended = true → exec (.pushc chr) s =
      .next ({ s with err := s.err ||| 0b010000#6 }.reply .seq 0#32)) ∧
    (s.ended = false → alpha chr = none → exec (.pushc chr) s =
      .next ({ s with incnt := s.incnt + 1#32, err := s.err ||| 0b000010#6 }.reply .char 0#32)) ∧
    (∀ sym : Symbol, s.ended = false → alpha chr = some sym →
      exec (.pushc chr) s = .next (accept sym s))

/-- R113: ACCEPT of an open message, as PUSHS runs it and as PUSHC of a character of the alphabet does. With
`t = ACC * 32 + sym` and `c = CNT + 5`: for `c >= 8` the byte `t >> (c - 8)` is emitted with data bit 8,
ACC and CNT keep the rest and BYTECNT counts; else ACC and CNT take `t` and `c`. INCNT counts either
way, modulo 2^32 like BYTECNT. The premise is the invariant of R22 and R23. -/
def Obligations.AcceptProcedure : Prop :=
  ∀ (s : State) (sym : Symbol) (i : Instr), s.Inv → s.ended = false →
    (i = .pushs sym ∨ ∃ chr, i = .pushc chr ∧ alpha chr = some sym) →
    ∃ u : State, u.incnt.toNat = (s.incnt.toNat + 1) % 2 ^ 32 ∧
      (8 ≤ s.cnt.toNat + 5 →
        (s.acc.toNat * 32 + sym.toNat) >>> (s.cnt.toNat - 3) < 256 ∧
        u.acc.toNat = (s.acc.toNat * 32 + sym.toNat) % 2 ^ (s.cnt.toNat - 3) ∧
        u.cnt.toNat = s.cnt.toNat - 3 ∧ u.bytecnt.toNat = (s.bytecnt.toNat + 1) % 2 ^ 32 ∧
        exec i s = .next ({ s with
          incnt := u.incnt, acc := u.acc, cnt := u.cnt, bytecnt := u.bytecnt }.reply .ok
            (BitVec.ofNat 32 (0x100 + (s.acc.toNat * 32 + sym.toNat) >>> (s.cnt.toNat - 3))))) ∧
      (s.cnt.toNat + 5 < 8 →
        u.acc.toNat = s.acc.toNat * 32 + sym.toNat ∧ u.cnt.toNat = s.cnt.toNat + 5 ∧
        exec i s = .next ({ s with incnt := u.incnt, acc := u.acc, cnt := u.cnt }.reply .ok 0#32))

/-- R63, R64, R22: a push that is accepted (PUSHS of a symbol, PUSHC of a character that stands for it)
appends the symbol's 5 bits, most-significant first, after the pending bits; a byte
is emitted exactly when 3 or more bits were pending, its bit 7 the first of those bits. -/
def Obligations.AcceptMovesBitsInOrder : Prop :=
  ∀ (s t : State) (sym : Symbol) (i : Instr), s.Inv → s.ended = false →
    (i = .pushs sym ∨ ∃ chr, i = .pushc chr ∧ alpha chr = some sym) → exec i s = .next t →
    (3 ≤ s.cnt.toNat → ∃ b : Byte, t.responses = s.responses ++ [⟨.ok, 0#23 ++ 1#1 ++ b⟩] ∧
      pendingBits s ++ bitsMsb 5 sym.toNat = bitsMsb 8 b.toNat ++ pendingBits t) ∧
    (s.cnt.toNat < 3 → t.responses = s.responses ++ [⟨.ok, 0#32⟩] ∧
      pendingBits s ++ bitsMsb 5 sym.toNat = pendingBits t)

/-- R116: END. The first END of a message drops the pending bits, recording their number; a second changes
no register but the sticky bit; the response is LEN for an input that is empty or not a multiple of 8
and OK otherwise, with BYTECNT either way; any of bits 27:0 set responds ENC. -/
def Obligations.EndCommand : Prop :=
  wordRuns 0x40000000#32 .endMsg ∧
  (∀ w : Word, w.extractLsb' 28 4 = 0x4#4 → w.extractLsb' 0 28 ≠ 0#28 → wordIllegal w) ∧
  ∀ s : State,
    let badLength := s.incnt.toNat = 0 ∨ s.incnt.toNat % 8 ≠ 0
    let u := if s.ended = true then s
      else { s with drop := s.cnt, acc := 0#12, cnt := 0#4, ended := true }
    (badLength → exec .endMsg s =
      .next ({ u with err := s.err ||| 0b000100#6 }.reply .len s.bytecnt)) ∧
    (¬ badLength → exec .endMsg s = .next (u.reply .ok s.bytecnt))

/-- R35: the alphabet table, every code not listed being absent. -/
def Obligations.AlphabetTable : Prop :=
  ∀ c : Byte, alpha c =
    if c = 0x2B#8 then some 0#5 else if c = 0x2D#8 then some 1#5 else if c = 0x3D#8 then some 2#5
    else if 0x41 ≤ c.toNat ∧ c.toNat ≤ 0x5A then some (BitVec.ofNat 5 (c.toNat - 0x41 + 3))
    else if c = 0x5F#8 then some 29#5 else if c = 0x7B#8 then some 30#5
    else if c = 0x7D#8 then some 31#5 else none

/-! ### Mapper commands -/

/-- R140: SETCX writes CX and nothing else and responds (OK, 0); a set bit of 27:16 responds ENC. -/
def Obligations.SetcxCommand : Prop :=
  (∀ val : BitVec 16, wordRuns (0x50000000#32 ||| val.setWidth 32) (.setcx val)) ∧
  (∀ w : Word, w.extractLsb' 28 4 = 0x5#4 → w.extractLsb' 16 12 ≠ 0#12 → wordIllegal w) ∧
  ∀ (val : BitVec 16) (s : State),
    exec (.setcx val) s = .next ({ s with cx := val }.reply .ok 0#32)

/-- R141: SETCY writes CY and nothing else and responds (OK, 0); a set bit of 27:16 responds ENC. -/
def Obligations.SetcyCommand : Prop :=
  (∀ val : BitVec 16, wordRuns (0x60000000#32 ||| val.setWidth 32) (.setcy val)) ∧
  (∀ w : Word, w.extractLsb' 28 4 = 0x6#4 → w.extractLsb' 16 12 ≠ 0#12 → wordIllegal w) ∧
  ∀ (val : BitVec 16) (s : State),
    exec (.setcy val) s = .next ({ s with cy := val }.reply .ok 0#32)

/-- R142: SETR writes R and nothing else and responds (OK, 0); a set bit of 27:15 responds ENC. -/
def Obligations.SetrCommand : Prop :=
  (∀ rad : BitVec 15, wordRuns (0x70000000#32 ||| rad.setWidth 32) (.setr rad)) ∧
  (∀ w : Word, w.extractLsb' 28 4 = 0x7#4 → w.extractLsb' 15 13 ≠ 0#13 → wordIllegal w) ∧
  ∀ (rad : BitVec 15) (s : State),
    exec (.setr rad) s = .next ({ s with r := rad }.reply .ok 0#32)

/-- R143: SETN writes NFRAMES, 0 included, and nothing else and responds (OK, 0); a set bit of 27:24
responds ENC. -/
def Obligations.SetnCommand : Prop :=
  (∀ nf : BitVec 24, wordRuns (0x80000000#32 ||| nf.setWidth 32) (.setn nf)) ∧
  (∀ w : Word, w.extractLsb' 28 4 = 0x8#4 → w.extractLsb' 24 4 ≠ 0#4 → wordIllegal w) ∧
  ∀ (nf : BitVec 24) (s : State),
    exec (.setn nf) s = .next ({ s with nframes := nf }.reply .ok 0#32)

/-- R144, R148: MAPA writes LASTANG and responds with the point
`(s16(CX) + ((COSQ(a) * R + 8192) >> 14), s16(CY) + ((SINQ(a) * R + 8192) >> 14))`, wrapped to 16 bits,
as `{Y, X}`: OK if both coordinates fit 16 bits, else WRAP with STATUS bit 5; a set bit of 27:16
responds ENC. -/
def Obligations.MapaCommand : Prop :=
  (∀ ang : Angle, wordRuns (0x90000000#32 ||| ang.setWidth 32) (.mapa ang)) ∧
  (∀ w : Word, w.extractLsb' 28 4 = 0x9#4 → w.extractLsb' 16 12 ≠ 0#12 → wordIllegal w) ∧
  ∀ (a : Angle) (s : State),
    let xs : Int := s.cx.toInt + (cosq a * (s.r.toNat : Int) + 8192) >>> (14 : Nat)
    let ys : Int := s.cy.toInt + (sinq a * (s.r.toNat : Int) + 8192) >>> (14 : Nat)
    let data : Word := BitVec.ofInt 16 ys ++ BitVec.ofInt 16 xs
    let outside : Prop := xs < -32768 ∨ xs > 32767 ∨ ys < -32768 ∨ ys > 32767
    (outside → exec (.mapa a) s =
      .next ({ s with lastang := a, err := s.err ||| 0b100000#6 }.reply .wrap data)) ∧
    (¬ outside → exec (.mapa a) s = .next ({ s with lastang := a }.reply .ok data))

/-- R145, R149: MAPS responds ARG, with nothing but STATUS bit 3 changed, if NFRAMES is 0 or FRM is not below
it; else it has the effect and response of MAPA at `(BASE[SLOT] - (FRM * 8192) div NFRAMES) mod 65536`; a
set bit 27 responds ENC. -/
def Obligations.MapsCommand : Prop :=
  (∀ (slot : BitVec 3) (frm : BitVec 24),
    wordRuns (0xA0000000#32 ||| slot.setWidth 32 <<< 24 ||| frm.setWidth 32) (.maps slot frm)) ∧
  (∀ w : Word, w.extractLsb' 28 4 = 0xA#4 → w.extractLsb' 27 1 ≠ 0#1 → wordIllegal w) ∧
  ∀ (slot : BitVec 3) (frm : BitVec 24) (s : State),
    let base := [45056, 53248, 61440, 4096, 12288, 20480, 28672, 36864].getD slot.toNat 0
    let off := frm.toNat * 8192 / s.nframes.toNat
    let a : Angle := BitVec.ofNat 16 (base + 65536 - off)
    let xs : Int := s.cx.toInt + (cosq a * (s.r.toNat : Int) + 8192) >>> (14 : Nat)
    let ys : Int := s.cy.toInt + (sinq a * (s.r.toNat : Int) + 8192) >>> (14 : Nat)
    let data : Word := BitVec.ofInt 16 ys ++ BitVec.ofInt 16 xs
    let outside : Prop := xs < -32768 ∨ xs > 32767 ∨ ys < -32768 ∨ ys > 32767
    (s.nframes.toNat = 0 ∨ s.nframes.toNat ≤ frm.toNat → exec (.maps slot frm) s =
      .next ({ s with err := s.err ||| 0b001000#6 }.reply .arg 0#32)) ∧
    (frm.toNat < s.nframes.toNat → outside → exec (.maps slot frm) s =
      .next ({ s with lastang := a, err := s.err ||| 0b100000#6 }.reply .wrap data)) ∧
    (frm.toNat < s.nframes.toNat → ¬ outside → exec (.maps slot frm) s =
      .next ({ s with lastang := a }.reply .ok data))

/-- R36: the base angle of each slot, and its exact conversion from the source's degrees (here in half
degrees): `BASE[i] * 720` is `2 * BASE_DEG[i] * 65536`, modulo a full turn. -/
def Obligations.BaseAngleTable : Prop :=
  ((List.range 8).map fun i => baseAngle (BitVec.ofNat 3 i)) =
    [0xB000#16, 0xD000#16, 0xF000#16, 0x1000#16, 0x3000#16, 0x5000#16, 0x7000#16, 0x9000#16] ∧
  ∀ slot : BitVec 3, (((baseAngle slot).toNat : Int) * 720 -
    [-225, -135, -45, 45, 135, 225, 315, -315].getD slot.toNat 0 * 65536) % (720 * 65536) = 0

/-- R147: COSQ and SINQ are the integers nearest to `16384 cos(2π a / 65536)` and `16384 sin(2π a / 65536)`,
in -16384 to 16384, with no halfway case: over all 65536 angles 16384 times the cosine stays at least
8.7e-7 from a halfway point, and at a = 58646 it comes within 8.8e-7 of one. -/
def Obligations.TrigIsNearestInteger : Prop :=
  (∀ a : Angle,
    |16384 * Real.cos (2 * Real.pi * (a.toNat : ℝ) / 65536) - (cosq a : ℝ)| ≤ 1 / 2 - 87 / 100000000 ∧
    |16384 * Real.sin (2 * Real.pi * (a.toNat : ℝ) / 65536) - (sinq a : ℝ)| ≤ 1 / 2 - 87 / 100000000 ∧
    -16384 ≤ cosq a ∧ cosq a ≤ 16384 ∧ -16384 ≤ sinq a ∧ sinq a ≤ 16384) ∧
  1 / 2 - 88 / 100000000 ≤
    |16384 * Real.cos (2 * Real.pi * 58646 / 65536) - (cosq 58646#16 : ℝ)| ∧
  cosq 0#16 = 16384 ∧ cosq 16384#16 = 0 ∧ cosq 32768#16 = -16384 ∧ cosq 49152#16 = 0 ∧
  sinq 0#16 = 0 ∧ sinq 16384#16 = 16384 ∧ sinq 32768#16 = 0 ∧ sinq 49152#16 = -16384

/-- R148: for every angle, center and radius each rounded term is in -32767 to 32767, so the coordinates
before wrapping are in -65535 to 65534. -/
def Obligations.PointTermsBounded : Prop :=
  ∀ (a : Angle) (c : BitVec 16) (r : BitVec 15), ∀ q ∈ [cosq a, sinq a],
    let rounded : Int := (q * (r.toNat : Int) + 8192) >>> (14 : Nat);
    -32767 ≤ rounded ∧ rounded ≤ 32767 ∧ -65535 ≤ c.toInt + rounded ∧ c.toInt + rounded ≤ 65534

/-- R150: the symmetries of the tables, and their values at the base angles. -/
def Obligations.TrigSymmetries : Prop :=
  (∀ a : Angle, cosq (-a) = cosq a ∧ cosq (a + 32768#16) = -cosq a ∧
    sinq a = cosq (a - 16384#16) ∧ sinq (-a) = -sinq a) ∧
  ((List.range 8).map fun i => (cosq (baseAngle (BitVec.ofNat 3 i)), sinq (baseAngle (BitVec.ofNat 3 i)))) =
    [(-6270, -15137), (6270, -15137), (15137, -6270), (15137, 6270), (6270, 15137), (-6270, 15137)]
      ++ [(-15137, 6270), (-15137, -6270)]

/-- R154: for every frame MAPS accepts, the slot is rotated back by less than 45 degrees (8192 units), and
by at most `8192 * (NFRAMES - 1) / NFRAMES`; LASTANG shows the angle. -/
def Obligations.RotationBelow45Degrees : Prop :=
  ∀ (s t : State) (slot : BitVec 3) (frm : BitVec 24), frm.toNat < s.nframes.toNat →
    exec (.maps slot frm) s = .next t →
    (baseAngle slot - t.lastang).toNat * s.nframes.toNat ≤ 8192 * (s.nframes.toNat - 1) ∧
      (baseAngle slot - t.lastang).toNat < 8192

/-- R151: MAPA's response depends on its angle and on CX, CY and R alone. -/
def Obligations.PointReadsOnlyTheCircle : Prop :=
  ∀ (s s' : State) (a : Angle), s'.cx = s.cx → s'.cy = s.cy → s'.r = s.r →
    ∃ (t t' : State) (r : Response), exec (.mapa a) s = .next t ∧ exec (.mapa a) s' = .next t' ∧
      t.responses = s.responses ++ [r] ∧ t'.responses = s'.responses ++ [r]

/-- R155 for MAPA: the unwrapped coordinates stand within `1/2 + R/32768` of the source's real point
`(cx + r cos θ, cy + r sin θ)`, and an OK response carries them. -/
def Obligations.MapaNearRealPoint : Prop :=
  ∀ (s : State) (a : Angle),
    let θ : ℝ := 2 * Real.pi * (a.toNat : ℝ) / 65536
    let xs : Int := s.cx.toInt + (cosq a * (s.r.toNat : Int) + 8192) >>> (14 : Nat)
    let ys : Int := s.cy.toInt + (sinq a * (s.r.toNat : Int) + 8192) >>> (14 : Nat)
    |(xs : ℝ) - ((s.cx.toInt : ℝ) + (s.r.toNat : ℝ) * Real.cos θ)| ≤ 1 / 2 + (s.r.toNat : ℝ) / 32768 ∧
    |(ys : ℝ) - ((s.cy.toInt : ℝ) + (s.r.toNat : ℝ) * Real.sin θ)| ≤ 1 / 2 + (s.r.toNat : ℝ) / 32768 ∧
    ∀ t d, exec (.mapa a) s = .next t → t.responses = s.responses ++ [⟨.ok, d⟩] →
      (d.extractLsb' 0 16).toInt = xs ∧ (d.extractLsb' 16 16).toInt = ys

/-- R155 for MAPS: with θ the source's exact angle `base_angle[i] - FRM * 45 / NFRAMES` in degrees, the
unwrapped coordinates of every accepted MAPS, the one that responds WRAP included, stand within
`1/2 + R/32768 + R * 2π / 65536` of the source's real point; the response carries them cut to 16 bits, and
an OK response carries them exactly. -/
def Obligations.MapsNearRealPoint : Prop :=
  ∀ (s : State) (slot : BitVec 3) (frm : BitVec 24), frm.toNat < s.nframes.toNat →
    let degrees : ℝ := ([-225, -135, -45, 45, 135, 225, 315, -315].getD slot.toNat 0 : Int) / 2 -
      (frm.toNat : ℝ) * 45 / (s.nframes.toNat : ℝ)
    let θ : ℝ := degrees * Real.pi / 180
    let bound : ℝ := 1 / 2 + (s.r.toNat : ℝ) / 32768 + (s.r.toNat : ℝ) * (2 * Real.pi) / 65536
    let base := [45056, 53248, 61440, 4096, 12288, 20480, 28672, 36864].getD slot.toNat 0
    let a : Angle := BitVec.ofNat 16 (base + 65536 - frm.toNat * 8192 / s.nframes.toNat)
    let xs : Int := s.cx.toInt + (cosq a * (s.r.toNat : Int) + 8192) >>> (14 : Nat)
    let ys : Int := s.cy.toInt + (sinq a * (s.r.toNat : Int) + 8192) >>> (14 : Nat)
    |(xs : ℝ) - ((s.cx.toInt : ℝ) + (s.r.toNat : ℝ) * Real.cos θ)| ≤ bound ∧
    |(ys : ℝ) - ((s.cy.toInt : ℝ) + (s.r.toNat : ℝ) * Real.sin θ)| ≤ bound ∧
    ∃ (t : State) (st : Status) (d : Word), exec (.maps slot frm) s = .next t ∧ t.lastang = a ∧
      t.responses = s.responses ++ [⟨st, d⟩] ∧ (st = .ok ∨ st = .wrap) ∧
      d = BitVec.ofInt 16 ys ++ BitVec.ofInt 16 xs ∧
      (st = .ok → (d.extractLsb' 0 16).toInt = xs ∧ (d.extractLsb' 16 16).toInt = ys)

/-- R152: the host's MAPS of a byte at a frame below NFRAMES give one point per set bit, in increasing slot
order, slot i for byte bit 7-i, each with the response MAPA gives at the slot's rotated angle. -/
def Obligations.FramePointsInSlotOrder : Prop :=
  ∀ (s : State) (b : Byte) (f : BitVec 24), f.toNat < s.nframes.toNat → s.pending = [] →
    let slots := (List.range 8).filter fun i => b.getLsbD (7 - i)
    ∃ (t : State) (rs : List Response),
      Host.Core.run core slots.length (s.issue (frameWords b f)) = .next t ∧
      t.pending = [] ∧ t.responses = s.responses ++ rs ∧
      List.Forall₂ (fun i r => ∃ u, exec (.mapa (BitVec.ofNat 16
          ([45056, 53248, 61440, 4096, 12288, 20480, 28672, 36864].getD i 0 + 65536 -
            f.toNat * 8192 / s.nframes.toNat))) s = .next u ∧
          u.responses = s.responses ++ [r])
        slots rs

/-! ### Statuses and sticky bits -/

/-- R204: which statuses the words of each opcode can give, in both directions. -/
def Obligations.StatusesOfEachOpcode : Prop :=
  let table : Nat → List Status := fun op =>
    match op with
    | 0x0 | 0x1 | 0x5 | 0x6 | 0x7 | 0x8 | 0xC => [.ok, .enc]
    | 0x2 => [.ok, .enc, .seq]
    | 0x3 => [.ok, .enc, .char, .seq]
    | 0x4 => [.ok, .enc, .len]
    | 0x9 => [.ok, .enc, .wrap]
    | 0xA => [.ok, .enc, .arg, .wrap]
    | 0xB => [.ok, .enc, .arg]
    | _ => [.enc]
  ∀ (op : BitVec 4) (st : Status),
    st ∈ table op.toNat ↔
      ∃ (s t : State) (w : Word) (rest : List HostAction) (d : Word),
        s.pending = .command w :: rest ∧ w.toNat / 2 ^ 28 = op.toNat ∧ step s = .next t ∧
        t.responses = s.responses ++ [⟨st, d⟩]

/-- R202: a response of status code e sets STATUS bit e-1 and no other bit; an OK response sets none; no
bit is cleared but by a CLR or an ECLR (or reset, `ResetSetsEveryRegister`). -/
def Obligations.StickyRecord : Prop :=
  ∀ (s t : State) (w : Word) (rest : List HostAction) (st : Status) (d : Word),
    s.pending = .command w :: rest → step s = .next t → t.responses = s.responses ++ [⟨st, d⟩] →
    ∀ k, k < 6 →
      (st.code.toNat = k + 1 → t.err.getLsbD k = true) ∧
      (st.code.toNat ≠ k + 1 → t.err.getLsbD k = true → s.err.getLsbD k = true) ∧
      (s.err.getLsbD k = true → t.err.getLsbD k = false →
        decode w = .ok .clr ∨ ∃ mask, decode w = .ok (.eclr mask) ∧ mask.getLsbD k = true)

/-- R203: what a response other than OK changes. -/
def Obligations.NonOkEffects : Prop :=
  ∀ (s t : State) (w : Word) (rest : List HostAction) (st : Status) (d : Word),
    s.pending = .command w :: rest → step s = .next t → t.responses = s.responses ++ [⟨st, d⟩] →
    let u : State := { s with pending := rest, err := s.err ||| 1#6 <<< (st.code.toNat - 1) }
    (st = .enc ∨ st = .seq ∨ st = .arg → d = 0#32 ∧ t = u.reply st 0#32) ∧
    (st = .char → d = 0#32 ∧ t = { u with incnt := s.incnt + 1#32 }.reply .char 0#32) ∧
    (st = .len → d = s.bytecnt ∧ t = (endMessage u).reply .len s.bytecnt ∧ t.ended = true ∧
      (s.ended = false → t.drop = s.cnt ∧ t.acc = 0#12 ∧ t.cnt = 0#4)) ∧
    (st = .wrap → ∃ a : Angle,
      (decode w = .ok (.mapa a) ∨ ∃ slot frm, decode w = .ok (.maps slot frm) ∧
        frm.toNat < s.nframes.toNat ∧
        a = baseAngle slot - BitVec.ofNat 16 (frm.toNat * 8192 / s.nframes.toNat)) ∧
      d = BitVec.ofInt 16 (s.cy.toInt + (sinq a * (s.r.toNat : Int) + 8192) >>> (14 : Nat)) ++
        BitVec.ofInt 16 (s.cx.toInt + (cosq a * (s.r.toNat : Int) + 8192) >>> (14 : Nat)) ∧
      t = { u with lastang := a }.reply .wrap d)

/-- R205: the status of a command is decided by the first of its checks that fails: ENC, then SEQ for a push,
then CHAR or ARG by value, then the completed effect's LEN or WRAP. -/
def Obligations.PriorityOfChecks : Prop :=
  let outside : Int → Prop := fun v => v < -32768 ∨ v > 32767
  let wraps : State → Angle → Prop := fun s a =>
    outside (s.cx.toInt + (cosq a * (s.r.toNat : Int) + 8192) >>> (14 : Nat)) ∨
      outside (s.cy.toInt + (sinq a * (s.r.toNat : Int) + 8192) >>> (14 : Nat))
  ∀ (s t : State) (w : Word) (rest : List HostAction) (st : Status) (d : Word),
    s.pending = .command w :: rest → step s = .next t → t.responses = s.responses ++ [⟨st, d⟩] →
    match decode w with
    | .error _ => st = .enc
    | .ok (.pushs _) => (s.ended = true → st = .seq) ∧ (s.ended = false → st = .ok)
    | .ok (.pushc chr) => (s.ended = true → st = .seq) ∧
        (s.ended = false → alpha chr = none → st = .char) ∧
        (s.ended = false → alpha chr ≠ none → st = .ok)
    | .ok .endMsg => (s.incnt.toNat = 0 ∨ s.incnt.toNat % 8 ≠ 0 → st = .len) ∧
        (s.incnt.toNat ≠ 0 ∧ s.incnt.toNat % 8 = 0 → st = .ok)
    | .ok (.mapa a) => (wraps s a → st = .wrap) ∧ (¬ wraps s a → st = .ok)
    | .ok (.maps slot frm) =>
        (s.nframes.toNat = 0 ∨ s.nframes.toNat ≤ frm.toNat → st = .arg) ∧
        (frm.toNat < s.nframes.toNat →
          let a := baseAngle slot - BitVec.ofNat 16 (frm.toNat * 8192 / s.nframes.toNat)
          (wraps s a → st = .wrap) ∧ (¬ wraps s a → st = .ok))
    | .ok (.rdreg idx) => (10 ≤ idx.toNat → st = .arg) ∧ (idx.toNat < 10 → st = .ok)
    | .ok .nop | .ok .clr | .ok (.setcx _) | .ok (.setcy _) | .ok (.setr _) | .ok (.setn _)
    | .ok (.eclr _) => st = .ok

/-- R37: no command's computation reads the sticky bits. Changing them changes no register but STATUS, and
no response but the STATUS value that RDREG 0 and ECLR return. -/
def Obligations.StickyBitsSteerNothing : Prop :=
  ∀ (i : Instr) (s : State) (e : BitVec 6),
    ∃ (t t' : State) (r r' : Response), exec i s = .next t ∧ exec i { s with err := e } = .next t' ∧
      t.responses = s.responses ++ [r] ∧ t'.responses = s.responses ++ [r'] ∧
      t' = { t with err := t'.err, responses := t'.responses } ∧ r'.status = r.status ∧
      (i ≠ .rdreg 0#4 → (∀ mask, i ≠ .eclr mask) → r' = r)

/-! ### Frames and independence -/

/-- R21, R38: each register is written only by the commands its row of R21 names: STATUS.ERR by ECLR, CLR
and a command that responds with a status other than OK, ID by nothing. An illegal word, which names no
command, responds ENC and so writes STATUS.ERR alone. -/
def Obligations.WritersOfEachRegister : Prop :=
  (∀ (i : Instr) (s t : State), exec i s = .next t →
    (t.acc ≠ s.acc → i.opcode ∈ [.pushs, .pushc, .endMsg, .clr]) ∧
    (t.cnt ≠ s.cnt → i.opcode ∈ [.pushs, .pushc, .endMsg, .clr]) ∧
    (t.incnt ≠ s.incnt → i.opcode ∈ [.pushs, .pushc, .clr]) ∧
    (t.bytecnt ≠ s.bytecnt → i.opcode ∈ [.pushs, .pushc, .clr]) ∧
    (t.ended ≠ s.ended → i.opcode ∈ [.endMsg, .clr]) ∧
    (t.drop ≠ s.drop → i.opcode ∈ [.endMsg, .clr]) ∧
    (t.err ≠ s.err → i.opcode ∈ [.eclr, .clr] ∨
      ∃ (st : Status) (d : Word), st ≠ .ok ∧ t.responses = s.responses ++ [⟨st, d⟩]) ∧
    (t.cx ≠ s.cx → i.opcode = .setcx) ∧ (t.cy ≠ s.cy → i.opcode = .setcy) ∧
    (t.r ≠ s.r → i.opcode = .setr) ∧ (t.nframes ≠ s.nframes → i.opcode = .setn) ∧
    (t.lastang ≠ s.lastang → i.opcode ∈ [.mapa, .maps]) ∧
    exec (.rdreg 8#4) t = .next (t.reply .ok 0x52503538#32)) ∧
  (∀ (s t : State) (w : Word) (rest : List HostAction) (e : Illegal),
    s.pending = .command w :: rest → decode w = .error e → step s = .next t →
    t = { s with pending := rest, err := t.err, responses := s.responses ++ [⟨.enc, 0#32⟩] })

/-- R77, the first half: re-packer commands neither read nor write CX, CY, R, NFRAMES or LASTANG, and mapper
commands neither read nor write ACC, CNT, INCNT, BYTECNT, ENDED or DROP. Not writing is the frame; not
reading says that other values there change neither the response nor the other registers. -/
def Obligations.UnitsDoNotMeet : Prop :=
  (∀ (i : Instr) (s : State), i.opcode.isRepacker = true → ∃ t, exec i s = .next t ∧
    t.cx = s.cx ∧ t.cy = s.cy ∧ t.r = s.r ∧ t.nframes = s.nframes ∧ t.lastang = s.lastang ∧
    ∀ cx cy r nframes lastang,
      exec i { s with cx := cx, cy := cy, r := r, nframes := nframes, lastang := lastang } =
        .next { t with cx := cx, cy := cy, r := r, nframes := nframes, lastang := lastang }) ∧
  (∀ (i : Instr) (s : State), i.opcode.isMapper = true → ∃ t, exec i s = .next t ∧
    t.acc = s.acc ∧ t.cnt = s.cnt ∧ t.incnt = s.incnt ∧ t.bytecnt = s.bytecnt ∧
    t.ended = s.ended ∧ t.drop = s.drop ∧
    ∀ acc cnt incnt bytecnt ended drop,
      exec i { s with
          acc := acc, cnt := cnt, incnt := incnt, bytecnt := bytecnt, ended := ended, drop := drop } =
        .next { t with
          acc := acc, cnt := cnt, incnt := incnt, bytecnt := bytecnt, ended := ended, drop := drop })

/-- R77, the second half: swapping two adjacent commands of different units changes neither of their
responses, and no register but the sticky bits. -/
def Obligations.UnitsCommute : Prop :=
  ∀ (i j : Instr) (s : State), i.opcode.isRepacker = true → j.opcode.isMapper = true →
    ∃ (s₁ s₂ t₁ t₂ : State) (ri rj : Response),
      exec i s = .next s₁ ∧ exec j s₁ = .next t₁ ∧ exec j s = .next s₂ ∧ exec i s₂ = .next t₂ ∧
      t₁.responses = s.responses ++ [ri, rj] ∧ t₂.responses = s.responses ++ [rj, ri] ∧
      t₂ = { t₁ with err := t₂.err, responses := t₂.responses }

/-- R71: repeating NOP, RDREG, a SET command, MAPA or MAPS, or END, gives the same response and leaves every
register as the first left it; repeating PUSHS does not. -/
def Obligations.RepeatedCommands : Prop :=
  (∀ (i : Instr) (s : State),
    i.opcode ∈ [.nop, .rdreg, .setcx, .setcy, .setr, .setn, .mapa, .maps, .endMsg] →
    ∃ (t : State) (r : Response), exec i s = .next t ∧ t.responses = s.responses ++ [r] ∧
      exec i t = .next (t.reply r.status r.data)) ∧
  (∃ (sym : Symbol) (s t u : State), exec (.pushs sym) s = .next t ∧ exec (.pushs sym) t = .next u ∧
    t.cnt ≠ s.cnt ∧ u.cnt ≠ t.cnt ∧ t.responses.getLast? ≠ u.responses.getLast?)

/-! ### The invariant -/

/-- R22, R23, R27: the invariant holds at reset. -/
def Obligations.ResetMeetsInvariant : Prop := State.reset.Inv

/-- R22, R23, R26, R27: from every state that meets it, every step, whatever the host does, leaves a state
that meets it: at most 7 bits pending, no bit of ACC above them, at most 7 bits dropped, nothing pending
after END and nothing dropped before it. -/
def Obligations.StepKeepsInvariant : Prop :=
  ∀ s t : State, s.Inv → step s = .next t → t.Inv

/-! ### Messages -/

/-- R117, R111: from the start of a message, whatever words the host issues that are neither CLR nor END
(pushes of either kind, refused characters, illegal words, commands of the mapper), the bytes the pushes
emit are `unpack(pack(S, 5), 8)` of the symbols accepted. -/
def Obligations.StreamEquivalence : Prop :=
  ∀ (s : State) (ws : List Word), messageStart s → s.pending = [] → (∀ w ∈ ws, staysInMessage w) →
    ∃ (t : State) (rs : List Response),
      Host.Core.run core ws.length (s.issue ws) = .next t ∧ t.pending = [] ∧
      t.responses = s.responses ++ rs ∧ rs.length = ws.length ∧
      messageBytes ws rs = unpack 8 (pack 5 (messageSymbols ws))

/-- R118: after k symbols of a message, k below 2^32, BYTECNT is `floor(5k / 8)` and CNT is `5k mod 8`, and
END then sets DROP to `5k mod 8`; for n characters all in the alphabet, n a multiple of 8, k is n, BYTECNT
is `5n / 8` exactly and DROP is 0. -/
def Obligations.MessageCounts : Prop :=
  (∀ (s : State) (ws : List Word), messageStart s → s.pending = [] → (∀ w ∈ ws, staysInMessage w) →
    (messageSymbols ws).length < 2 ^ 32 →
    ∃ t u : State, Host.Core.run core ws.length (s.issue ws) = .next t ∧
      t.bytecnt.toNat = 5 * (messageSymbols ws).length / 8 ∧
      t.cnt.toNat = 5 * (messageSymbols ws).length % 8 ∧
      exec .endMsg t = .next u ∧ u.drop.toNat = 5 * (messageSymbols ws).length % 8) ∧
  (∀ (s : State) (cs : List Byte), messageStart s → s.pending = [] → (∀ c ∈ cs, alpha c ≠ none) →
    cs.length % 8 = 0 → cs.length < 2 ^ 32 →
    ∃ t u : State, Host.Core.run core cs.length (s.issue (pushWords cs)) = .next t ∧
      (messageSymbols (pushWords cs)).length = cs.length ∧
      t.bytecnt.toNat * 8 = 5 * cs.length ∧
      exec .endMsg t = .next u ∧ u.drop = 0#4)

/-- R24, R25: over an open message INCNT counts every push, those of refused characters included, and
BYTECNT every byte emitted, both modulo 2^32. -/
def Obligations.CountersCountItemsAndBytes : Prop :=
  ∀ (s : State) (ws : List Word), messageStart s → s.pending = [] → (∀ w ∈ ws, staysInMessage w) →
    ∃ (t : State) (rs : List Response),
      Host.Core.run core ws.length (s.issue ws) = .next t ∧ t.responses = s.responses ++ rs ∧
      t.incnt.toNat = (ws.filter fun w => match decode w with
        | .ok (.pushs _) | .ok (.pushc _) => true
        | _ => false).length % 2 ^ 32 ∧
      t.bytecnt.toNat = (messageBytes ws rs).length % 2 ^ 32

/-- R119: the bits of the emitted bytes followed by the pending bits that END discards, read five at a time,
are the symbols accepted. -/
def Obligations.RoundTripAtWidthFive : Prop :=
  ∀ (s : State) (ws : List Word), messageStart s → s.pending = [] → (∀ w ∈ ws, staysInMessage w) →
    ∃ (t : State) (rs : List Response),
      Host.Core.run core ws.length (s.issue ws) = .next t ∧ t.responses = s.responses ++ rs ∧
      unpack 5 (pack 8 (messageBytes ws rs) ++ pendingBits t) = messageSymbols ws

/-- R120, R206, R234: for a string of fewer than 2^32 characters pushed one PUSHC each and ended, what the
host reads from the responses (the bytes of a valid message, else LEN first, then CHAR) is what the
source's composition gives: its bytes, or the same one of its two errors. -/
def Obligations.HostReadsTheSourcesResult : Prop :=
  ∀ (s : State) (cs : List Byte), messageStart s → s.pending = [] → cs.length < 2 ^ 32 →
    ∃ (t : State) (pushes : List Response) (atEnd : Response),
      Host.Core.run core (cs.length + 1) (s.issue (pushWords cs ++ [encode .endMsg])) = .next t ∧
      t.responses = s.responses ++ pushes ++ [atEnd] ∧ pushes.length = cs.length ∧
      hostResult (pushWords cs) pushes atEnd = (sourceBytes cs).mapError some

/-- R120, R111: any message, from its start to its END, as the host reads it. No push of it responds SEQ, and
a push adds one symbol exactly if it responds OK. The host gets bytes only if the number of items taken is
neither 0 nor off a multiple of 8, no character was refused and no push was illegal; then they are
`unpack(pack(S, 5), 8)` with the item of every push in S. Else it gets none, and the source's diagnosis
where there is one: LEN first, then CHAR. -/
def Obligations.HostReadsEveryMessage : Prop :=
  ∀ (s : State) (ws : List Word), messageStart s → s.pending = [] → (∀ w ∈ ws, staysInMessage w) →
    let items := (ws.filter fun w => match decode w with
      | .ok (.pushs _) | .ok (.pushc _) => true
      | _ => false).length % 2 ^ 32
    let refusedChar := ws.any fun w => match decode w with
      | .ok (.pushc chr) => (alpha chr).isNone
      | _ => false
    let illegalPush := ws.any fun w => isPush w && match decode w with
      | .error _ => true
      | .ok _ => false
    ∃ (t : State) (rs : List Response) (atEnd : Response),
      Host.Core.run core (ws.length + 1) (s.issue (ws ++ [encode .endMsg])) = .next t ∧
      t.responses = s.responses ++ rs ++ [atEnd] ∧
      List.Forall₂ (fun w r => isPush w = true → r.status ≠ .seq ∧
        (wordSymbols w).length = if r.status = .ok then 1 else 0) ws rs ∧
      hostResult ws rs atEnd =
        (if items = 0 ∨ items % 8 ≠ 0 then .error (some .invalidInputLength)
         else if refusedChar = true then .error (some .unknownCharacter)
         else if illegalPush = true then .error none
         else .ok (unpack 8 (pack 5 (messageSymbols ws)))) ∧
      (messageValid ws rs atEnd = true →
        (messageSymbols ws).length = (ws.filter isPush).length ∧ t.drop = 0#4)

/-- R120: a host that has not kept every response may use STATUS instead. From a CLR, over a message that
does not clear sticky bits by an ECLR: after END bit 1 of STATUS is set exactly if some push responded CHAR,
and then the message is invalid; bit 0 is set exactly if some command was illegal; a message END responds
OK for and both bits clear is valid; and the diagnosis is the one all responses give. -/
def Obligations.StatusShowsInvalidMessages : Prop :=
  ∀ (s : State) (ws : List Word), messageStart s → s.err = 0#6 → s.pending = [] →
    (∀ w ∈ ws, staysInMessage w) → (∀ w ∈ ws, ∀ mask, decode w ≠ .ok (.eclr mask)) →
    ∃ (t : State) (rs : List Response) (atEnd : Response) (status : Word),
      Host.Core.run core (ws.length + 1) (s.issue (ws ++ [encode .endMsg])) = .next t ∧
      t.responses = s.responses ++ rs ++ [atEnd] ∧ rs.length = ws.length ∧
      exec (.rdreg 0#4) t = .next (t.reply .ok status) ∧
      (status.getLsbD 1 = true ↔ ∃ r ∈ pushResponses ws rs, r.status = .char) ∧
      (status.getLsbD 1 = true → messageValid ws rs atEnd = false) ∧
      (status.getLsbD 0 = true ↔ ∃ r ∈ rs, r.status = .enc) ∧
      (statusValid atEnd status = true → messageValid ws rs atEnd = true) ∧
      statusDiagnosis atEnd status = hostDiagnosis ws rs atEnd

end
end

