-- ==== Sys2Proof/Laws/PerInstr.lean ====
section
/-! SUPPORT. Facts about every command as an encoding, one lemma per constructor of `Instr`: the family
`OpcodeField` says that the top four bits of a command's word are its opcode (spec/30_encoding.md R80, R82)
and that the opcode map reads that opcode back. -/

namespace Sys2Proof.Laws

/-- The top four bits of any word made of an opcode and 28 operand bits. -/
theorem opField_append (c : BitVec 4) (b : BitVec 28) : opField (c ++ b : BitVec 32) = c :=
  BitVec.extractLsb'_append_eq_left

namespace OpcodeField

/-- The opcode field of the command's word is its opcode's code, and the opcode map reads it back. -/
def Statement (i : Instr) : Prop :=
  opField (encode i) = i.opcode.code ∧ opcodeOf (opField (encode i)) = some i.opcode

theorem of_code (i : Instr) (h : opcodeOf i.opcode.code = some i.opcode) : Statement i := by
  have h1 : opField (encode i) = i.opcode.code := opField_append _ _
  exact ⟨h1, by rw [h1, h]⟩

theorem nop : Statement .nop := of_code _ rfl
theorem clr : Statement .clr := of_code _ rfl
theorem pushs (sym : Symbol) : Statement (.pushs sym) := of_code _ rfl
theorem pushc (chr : Byte) : Statement (.pushc chr) := of_code _ rfl
theorem endMsg : Statement .endMsg := of_code _ rfl
theorem setcx (val : BitVec 16) : Statement (.setcx val) := of_code _ rfl
theorem setcy (val : BitVec 16) : Statement (.setcy val) := of_code _ rfl
theorem setr (rad : BitVec 15) : Statement (.setr rad) := of_code _ rfl
theorem setn (nf : BitVec 24) : Statement (.setn nf) := of_code _ rfl
theorem mapa (ang : Angle) : Statement (.mapa ang) := of_code _ rfl
theorem maps (slot : BitVec 3) (frm : BitVec 24) : Statement (.maps slot frm) := of_code _ rfl
theorem rdreg (idx : BitVec 4) : Statement (.rdreg idx) := of_code _ rfl
theorem eclr (mask : BitVec 6) : Statement (.eclr mask) := of_code _ rfl

end OpcodeField

end Sys2Proof.Laws
end

