-- ==== Sys2Proof/Laws/Encoding.lean ====
section
/-! SUPPORT. The opcode map and `decode` as relations, and a command's word bit by bit: `getLsbD_encode` splits
it into opcode and operand bits, and one lemma per format (spec/30_encoding.md R81) reads the operand bits. -/

namespace Sys2Proof.Laws

/-- The opcode map reads exactly an opcode's own code (R82). -/
theorem opcodeOf_eq_some_iff (c : BitVec 4) (op : Opcode) : opcodeOf c = some op ↔ c = op.code := by
  revert c
  cases op <;> decide

/-- A word decodes to a command exactly if its opcode field is an opcode's, its reserved bits are 0, and
the command is that opcode's with the word's fields (R86). -/
theorem decode_ok_iff (w : Word) (i : Instr) :
    decode w = .ok i ↔ ∃ op : Opcode, opField w = op.code ∧
      w &&& op.format.mask = op.code ++ 0#28 ∧ op.operands w = i := by
  unfold decode
  cases h : opcodeOf (opField w) with
  | none =>
    simp only [reduceCtorEq, false_iff, not_exists, not_and]
    intro op hop
    rw [(opcodeOf_eq_some_iff _ _).2 hop] at h
    cases h
  | some op =>
    have hop := (opcodeOf_eq_some_iff _ _).1 h
    constructor
    · intro hd
      dsimp only at hd
      split at hd
      · exact ⟨op, hop, ‹_›, by simpa using hd⟩
      · cases hd
    · rintro ⟨op', hop', hmask, hi⟩
      have : some op = some op' := h.symm.trans ((opcodeOf_eq_some_iff _ _).2 hop')
      obtain rfl : op = op' := by simpa using this
      simp [hmask, hi]

/-- A command's word is its opcode above its operand bits (R80). -/
theorem getLsbD_encode (i : Instr) (k : Nat) :
    (encode i).getLsbD k =
      if k < 28 then i.operandBits.getLsbD k else i.opcode.code.getLsbD (k - 28) :=
  BitVec.getLsbD_append

theorem getLsbD_fs (x : BitVec 23) (y : BitVec 5) (k : Nat) :
    (x ++ y : BitVec 28).getLsbD k = if k < 5 then y.getLsbD k else x.getLsbD (k - 5) :=
  BitVec.getLsbD_append

theorem getLsbD_fc (x : BitVec 20) (y : BitVec 8) (k : Nat) :
    (x ++ y : BitVec 28).getLsbD k = if k < 8 then y.getLsbD k else x.getLsbD (k - 8) :=
  BitVec.getLsbD_append

theorem getLsbD_fv (x : BitVec 12) (y : BitVec 16) (k : Nat) :
    (x ++ y : BitVec 28).getLsbD k = if k < 16 then y.getLsbD k else x.getLsbD (k - 16) :=
  BitVec.getLsbD_append

theorem getLsbD_fr (x : BitVec 13) (y : BitVec 15) (k : Nat) :
    (x ++ y : BitVec 28).getLsbD k = if k < 15 then y.getLsbD k else x.getLsbD (k - 15) :=
  BitVec.getLsbD_append

theorem getLsbD_fn (x : BitVec 4) (y : BitVec 24) (k : Nat) :
    (x ++ y : BitVec 28).getLsbD k = if k < 24 then y.getLsbD k else x.getLsbD (k - 24) :=
  BitVec.getLsbD_append

theorem getLsbD_fm (x : BitVec 1) (y : BitVec 3) (z : BitVec 24) (k : Nat) :
    (x ++ y ++ z : BitVec 28).getLsbD k =
      if k < 24 then z.getLsbD k
      else if k - 24 < 3 then y.getLsbD (k - 24) else x.getLsbD (k - 24 - 3) := by
  have h : (x ++ y ++ z : BitVec 28).getLsbD k =
      if k < 24 then z.getLsbD k else (x ++ y).getLsbD (k - 24) := BitVec.getLsbD_append
  rw [h, BitVec.getLsbD_append]

theorem getLsbD_fi (x : BitVec 24) (y : BitVec 4) (k : Nat) :
    (x ++ y : BitVec 28).getLsbD k = if k < 4 then y.getLsbD k else x.getLsbD (k - 4) :=
  BitVec.getLsbD_append

theorem getLsbD_fe (x : BitVec 22) (y : BitVec 6) (k : Nat) :
    (x ++ y : BitVec 28).getLsbD k = if k < 6 then y.getLsbD k else x.getLsbD (k - 6) :=
  BitVec.getLsbD_append

end Sys2Proof.Laws
end

