-- ==== Sys2Proof/Laws/State.lean ====
section
/-! SUPPORT. One lemma per field for each named update of the state, true by computation, so that no proof
unfolds a record update: `respond`, `State.reply`, `countItem`, `clearMessage`, `endMessage`, `takeReset` and
`State.issue`. -/

namespace Sys2Proof.Machine

section
variable (s : State) (st : Status) (d : Word) (ws : List Word)

@[simp] theorem respond_acc : (respond st d s).acc = s.acc := rfl
@[simp] theorem respond_cnt : (respond st d s).cnt = s.cnt := rfl
@[simp] theorem respond_incnt : (respond st d s).incnt = s.incnt := rfl
@[simp] theorem respond_bytecnt : (respond st d s).bytecnt = s.bytecnt := rfl
@[simp] theorem respond_ended : (respond st d s).ended = s.ended := rfl
@[simp] theorem respond_drop : (respond st d s).drop = s.drop := rfl
@[simp] theorem respond_err : (respond st d s).err = s.err ||| stickyBits st := rfl
@[simp] theorem respond_cx : (respond st d s).cx = s.cx := rfl
@[simp] theorem respond_cy : (respond st d s).cy = s.cy := rfl
@[simp] theorem respond_r : (respond st d s).r = s.r := rfl
@[simp] theorem respond_nframes : (respond st d s).nframes = s.nframes := rfl
@[simp] theorem respond_lastang : (respond st d s).lastang = s.lastang := rfl
@[simp] theorem respond_pending : (respond st d s).pending = s.pending := rfl
@[simp] theorem respond_responses : (respond st d s).responses = s.responses ++ [⟨st, d⟩] := rfl

@[simp] theorem reply_acc : (s.reply st d).acc = s.acc := rfl
@[simp] theorem reply_cnt : (s.reply st d).cnt = s.cnt := rfl
@[simp] theorem reply_incnt : (s.reply st d).incnt = s.incnt := rfl
@[simp] theorem reply_bytecnt : (s.reply st d).bytecnt = s.bytecnt := rfl
@[simp] theorem reply_ended : (s.reply st d).ended = s.ended := rfl
@[simp] theorem reply_drop : (s.reply st d).drop = s.drop := rfl
@[simp] theorem reply_err : (s.reply st d).err = s.err := rfl
@[simp] theorem reply_cx : (s.reply st d).cx = s.cx := rfl
@[simp] theorem reply_cy : (s.reply st d).cy = s.cy := rfl
@[simp] theorem reply_r : (s.reply st d).r = s.r := rfl
@[simp] theorem reply_nframes : (s.reply st d).nframes = s.nframes := rfl
@[simp] theorem reply_lastang : (s.reply st d).lastang = s.lastang := rfl
@[simp] theorem reply_pending : (s.reply st d).pending = s.pending := rfl
@[simp] theorem reply_responses : (s.reply st d).responses = s.responses ++ [⟨st, d⟩] := rfl

@[simp] theorem countItem_acc : (countItem s).acc = s.acc := rfl
@[simp] theorem countItem_cnt : (countItem s).cnt = s.cnt := rfl
@[simp] theorem countItem_incnt : (countItem s).incnt = s.incnt + 1#32 := rfl
@[simp] theorem countItem_bytecnt : (countItem s).bytecnt = s.bytecnt := rfl
@[simp] theorem countItem_ended : (countItem s).ended = s.ended := rfl
@[simp] theorem countItem_drop : (countItem s).drop = s.drop := rfl
@[simp] theorem countItem_err : (countItem s).err = s.err := rfl
@[simp] theorem countItem_cx : (countItem s).cx = s.cx := rfl
@[simp] theorem countItem_cy : (countItem s).cy = s.cy := rfl
@[simp] theorem countItem_r : (countItem s).r = s.r := rfl
@[simp] theorem countItem_nframes : (countItem s).nframes = s.nframes := rfl
@[simp] theorem countItem_lastang : (countItem s).lastang = s.lastang := rfl
@[simp] theorem countItem_pending : (countItem s).pending = s.pending := rfl
@[simp] theorem countItem_responses : (countItem s).responses = s.responses := rfl

@[simp] theorem clearMessage_acc : (clearMessage s).acc = 0#12 := rfl
@[simp] theorem clearMessage_cnt : (clearMessage s).cnt = 0#4 := rfl
@[simp] theorem clearMessage_incnt : (clearMessage s).incnt = 0#32 := rfl
@[simp] theorem clearMessage_bytecnt : (clearMessage s).bytecnt = 0#32 := rfl
@[simp] theorem clearMessage_ended : (clearMessage s).ended = false := rfl
@[simp] theorem clearMessage_drop : (clearMessage s).drop = 0#4 := rfl
@[simp] theorem clearMessage_err : (clearMessage s).err = 0#6 := rfl
@[simp] theorem clearMessage_cx : (clearMessage s).cx = s.cx := rfl
@[simp] theorem clearMessage_cy : (clearMessage s).cy = s.cy := rfl
@[simp] theorem clearMessage_r : (clearMessage s).r = s.r := rfl
@[simp] theorem clearMessage_nframes : (clearMessage s).nframes = s.nframes := rfl
@[simp] theorem clearMessage_lastang : (clearMessage s).lastang = s.lastang := rfl
@[simp] theorem clearMessage_pending : (clearMessage s).pending = s.pending := rfl
@[simp] theorem clearMessage_responses : (clearMessage s).responses = s.responses := rfl

@[simp] theorem takeReset_acc : (takeReset s).acc = 0#12 := rfl
@[simp] theorem takeReset_cnt : (takeReset s).cnt = 0#4 := rfl
@[simp] theorem takeReset_incnt : (takeReset s).incnt = 0#32 := rfl
@[simp] theorem takeReset_bytecnt : (takeReset s).bytecnt = 0#32 := rfl
@[simp] theorem takeReset_ended : (takeReset s).ended = false := rfl
@[simp] theorem takeReset_drop : (takeReset s).drop = 0#4 := rfl
@[simp] theorem takeReset_err : (takeReset s).err = 0#6 := rfl
@[simp] theorem takeReset_cx : (takeReset s).cx = 0#16 := rfl
@[simp] theorem takeReset_cy : (takeReset s).cy = 0#16 := rfl
@[simp] theorem takeReset_r : (takeReset s).r = 0#15 := rfl
@[simp] theorem takeReset_nframes : (takeReset s).nframes = 0#24 := rfl
@[simp] theorem takeReset_lastang : (takeReset s).lastang = 0#16 := rfl
@[simp] theorem takeReset_pending : (takeReset s).pending = s.pending := rfl
@[simp] theorem takeReset_responses : (takeReset s).responses = s.responses := rfl

@[simp] theorem issue_acc : (s.issue ws).acc = s.acc := rfl
@[simp] theorem issue_cnt : (s.issue ws).cnt = s.cnt := rfl
@[simp] theorem issue_incnt : (s.issue ws).incnt = s.incnt := rfl
@[simp] theorem issue_bytecnt : (s.issue ws).bytecnt = s.bytecnt := rfl
@[simp] theorem issue_ended : (s.issue ws).ended = s.ended := rfl
@[simp] theorem issue_drop : (s.issue ws).drop = s.drop := rfl
@[simp] theorem issue_err : (s.issue ws).err = s.err := rfl
@[simp] theorem issue_cx : (s.issue ws).cx = s.cx := rfl
@[simp] theorem issue_cy : (s.issue ws).cy = s.cy := rfl
@[simp] theorem issue_r : (s.issue ws).r = s.r := rfl
@[simp] theorem issue_nframes : (s.issue ws).nframes = s.nframes := rfl
@[simp] theorem issue_lastang : (s.issue ws).lastang = s.lastang := rfl
@[simp] theorem issue_pending : (s.issue ws).pending = s.pending ++ ws.map HostAction.command := rfl
@[simp] theorem issue_responses : (s.issue ws).responses = s.responses := rfl

@[simp] theorem endMessage_acc : (endMessage s).acc = if s.ended then s.acc else 0#12 := by unfold endMessage; split <;> rfl
@[simp] theorem endMessage_cnt : (endMessage s).cnt = if s.ended then s.cnt else 0#4 := by unfold endMessage; split <;> rfl
@[simp] theorem endMessage_incnt : (endMessage s).incnt = s.incnt := by unfold endMessage; split <;> rfl
@[simp] theorem endMessage_bytecnt : (endMessage s).bytecnt = s.bytecnt := by unfold endMessage; split <;> rfl
@[simp] theorem endMessage_ended : (endMessage s).ended = true := by unfold endMessage; split <;> simp_all
@[simp] theorem endMessage_drop : (endMessage s).drop = if s.ended then s.drop else s.cnt := by unfold endMessage; split <;> rfl
@[simp] theorem endMessage_err : (endMessage s).err = s.err := by unfold endMessage; split <;> rfl
@[simp] theorem endMessage_cx : (endMessage s).cx = s.cx := by unfold endMessage; split <;> rfl
@[simp] theorem endMessage_cy : (endMessage s).cy = s.cy := by unfold endMessage; split <;> rfl
@[simp] theorem endMessage_r : (endMessage s).r = s.r := by unfold endMessage; split <;> rfl
@[simp] theorem endMessage_nframes : (endMessage s).nframes = s.nframes := by unfold endMessage; split <;> rfl
@[simp] theorem endMessage_lastang : (endMessage s).lastang = s.lastang := by unfold endMessage; split <;> rfl
@[simp] theorem endMessage_pending : (endMessage s).pending = s.pending := by unfold endMessage; split <;> rfl
@[simp] theorem endMessage_responses : (endMessage s).responses = s.responses := by unfold endMessage; split <;> rfl

end

end Sys2Proof.Machine
end

