-- ==== Sys2Proof/Laws/Ops.lean ====
section
/-! SUPPORT. What each shared operation can do, said once: the sticky bits of each status, `respond` and
`fail`, ACCEPT, END's effect, the length check, a point's status, the register read, what `exec` answers,
and the cases of a step. Later proofs cite these and do not unfold the operations. -/

namespace Sys2Proof.Machine

/-! ### Answering -/

@[simp] theorem stickyBits_ok : stickyBits .ok = 0b000000#6 := rfl
@[simp] theorem stickyBits_enc : stickyBits .enc = 0b000001#6 := rfl
@[simp] theorem stickyBits_char : stickyBits .char = 0b000010#6 := rfl
@[simp] theorem stickyBits_len : stickyBits .len = 0b000100#6 := rfl
@[simp] theorem stickyBits_arg : stickyBits .arg = 0b001000#6 := rfl
@[simp] theorem stickyBits_seq : stickyBits .seq = 0b010000#6 := rfl
@[simp] theorem stickyBits_wrap : stickyBits .wrap = 0b100000#6 := rfl

/-- An OK response changes no register. -/
theorem respond_ok_eq (d : Word) (s : State) : respond .ok d s = s.reply .ok d := by
  simp [respond, State.reply]

/-- A response sets its sticky bit and is delivered. -/
theorem respond_eq_reply (st : Status) (d : Word) (s : State) :
    respond st d s = { s with err := s.err ||| stickyBits st }.reply st d := rfl

/-- `fail` sets the sticky bit and delivers data 0. -/
theorem fail_eq_reply (st : Status) (s : State) :
    fail st s = { s with err := s.err ||| stickyBits st }.reply st 0#32 := rfl

/-! ### The re-packer -/

/-- With 3 or more bits pending, ACCEPT emits the first 8 bits and keeps the others. -/
theorem accept_emits (sym : Symbol) (s : State) (h : 3 ≤ s.cnt.toNat) :
    accept sym s =
      { s with
        incnt := s.incnt + 1#32
        acc := BitVec.ofNat 12 ((s.acc.toNat * 32 + sym.toNat) % 2 ^ (s.cnt.toNat - 3))
        cnt := BitVec.ofNat 4 (s.cnt.toNat - 3)
        bytecnt := s.bytecnt + 1#32 }.reply .ok
          (BitVec.ofNat 32 (0x100 + (s.acc.toNat * 32 + sym.toNat) / 2 ^ (s.cnt.toNat - 3))) := by
  have hc : 8 ≤ s.cnt.toNat + 5 := by omega
  have he : s.cnt.toNat + 5 - 8 = s.cnt.toNat - 3 := by omega
  simp [accept, firstByte, countItem, hc, he, respond_ok_eq]

/-- With fewer than 3 bits pending, ACCEPT keeps all of them and emits nothing. -/
theorem accept_holds (sym : Symbol) (s : State) (h : s.cnt.toNat < 3) :
    accept sym s =
      { s with
        incnt := s.incnt + 1#32
        acc := BitVec.ofNat 12 (s.acc.toNat * 32 + sym.toNat)
        cnt := BitVec.ofNat 4 (s.cnt.toNat + 5) }.reply .ok 0#32 := by
  have hc : ¬ 8 ≤ s.cnt.toNat + 5 := by omega
  simp [accept, countItem, hc, respond_ok_eq]

/-- END's effect while the message is open. -/
theorem endMessage_open (s : State) (h : s.ended = false) :
    endMessage s = { s with drop := s.cnt, acc := 0#12, cnt := 0#4, ended := true } := by
  simp [endMessage, h]

/-- END's effect on an ended message: none. -/
theorem endMessage_again (s : State) (h : s.ended = true) : endMessage s = s := by
  simp [endMessage, h]

/-- The length check passes exactly for a non-zero multiple of 8. -/
theorem lengthStatus_ok_iff (n : BitVec 32) :
    lengthStatus n = .ok ↔ n.toNat ≠ 0 ∧ n.toNat % 8 = 0 := by
  unfold lengthStatus Config.lengthMultiple
  split <;> simp <;> omega

/-- The length check answers OK or LEN. -/
theorem lengthStatus_cases (n : BitVec 32) : lengthStatus n = .ok ∨ lengthStatus n = .len := by
  unfold lengthStatus
  split <;> simp

/-! ### The mapper -/

theorem coordFits_iff (v : Int) : coordFits v = true ↔ -32768 ≤ v ∧ v ≤ 32767 := by
  simp [coordFits]

/-- A point is OK exactly when both coordinates fit. -/
theorem pointStatus_ok_iff (xs ys : Int) :
    pointStatus xs ys = .ok ↔
      (-32768 ≤ xs ∧ xs ≤ 32767) ∧ (-32768 ≤ ys ∧ ys ≤ 32767) := by
  unfold pointStatus
  split <;> simp_all [coordFits]

/-- A point's status is OK or WRAP. -/
theorem pointStatus_cases (xs ys : Int) : pointStatus xs ys = .ok ∨ pointStatus xs ys = .wrap := by
  unfold pointStatus
  split <;> simp

/-- The frame indices MAPS accepts. -/
theorem frameInRange_iff (frm nframes : BitVec 24) :
    frameInRange frm nframes = true ↔ frm.toNat < nframes.toNat := by
  simp [frameInRange]
  omega

/-- The rotation offset, with the parameters put in. -/
theorem rotationOffset_eq (frm nframes : BitVec 24) :
    rotationOffset frm nframes = frm.toNat * 8192 / nframes.toNat := rfl

/-! ### What a command answers -/

/-- Every command answers a next state: one response is delivered on top of register changes that touch
neither what the host has still to do nor what it has already received. -/
theorem exec_responds (i : Instr) (s : State) :
    ∃ st d t, exec i s = .next (respond st d t) ∧
      t.pending = s.pending ∧ t.responses = s.responses := by
  have hpoint : ∀ a, ∃ st d t, point a s = respond st d t ∧
      t.pending = s.pending ∧ t.responses = s.responses :=
    fun a => ⟨_, _, { s with lastang := a }, rfl, rfl, rfl⟩
  have hacc : ∀ sym, ∃ st d t, accept sym s = respond st d t ∧
      t.pending = s.pending ∧ t.responses = s.responses := by
    intro sym
    simp only [accept]
    split
    · exact ⟨_, _, _, rfl, rfl, rfl⟩
    · exact ⟨_, _, _, rfl, rfl, rfl⟩
  cases i with
  | nop => exact ⟨_, _, _, rfl, rfl, rfl⟩
  | clr => exact ⟨_, _, _, rfl, rfl, rfl⟩
  | pushs sym =>
    by_cases he : s.ended = true
    · exact ⟨.seq, 0#32, s, by simp [exec, execPushs, he, fail], rfl, rfl⟩
    · obtain ⟨st, d, t, h, hp, hr⟩ := hacc sym
      exact ⟨st, d, t, by simp [exec, execPushs, he, h], hp, hr⟩
  | pushc chr =>
    by_cases he : s.ended = true
    · exact ⟨.seq, 0#32, s, by simp [exec, execPushc, he, fail], rfl, rfl⟩
    · cases ha : alpha chr with
      | none => exact ⟨.char, 0#32, countItem s, by simp [exec, execPushc, he, ha, fail], rfl, rfl⟩
      | some sym =>
        obtain ⟨st, d, t, h, hp, hr⟩ := hacc sym
        exact ⟨st, d, t, by simp [exec, execPushc, he, ha, h], hp, hr⟩
  | endMsg => exact ⟨_, _, _, rfl, endMessage_pending s, endMessage_responses s⟩
  | setcx _ => exact ⟨_, _, _, rfl, rfl, rfl⟩
  | setcy _ => exact ⟨_, _, _, rfl, rfl, rfl⟩
  | setr _ => exact ⟨_, _, _, rfl, rfl, rfl⟩
  | setn _ => exact ⟨_, _, _, rfl, rfl, rfl⟩
  | mapa _ => exact ⟨_, _, _, rfl, rfl, rfl⟩
  | maps slot frm =>
    by_cases hf : frameInRange frm s.nframes = true
    · obtain ⟨st, d, t, h, hp, hr⟩ := hpoint (slotAngle slot frm s.nframes)
      exact ⟨st, d, t, by simp [exec, execMaps, hf, h], hp, hr⟩
    · exact ⟨.arg, 0#32, s, by simp [exec, execMaps, hf, fail], rfl, rfl⟩
  | rdreg idx =>
    cases hv : regval idx s with
    | none => exact ⟨.arg, 0#32, s, by simp [exec, execRdreg, hv, fail], rfl, rfl⟩
    | some v => exact ⟨.ok, v, s, by simp [exec, execRdreg, hv], rfl, rfl⟩
  | eclr _ => exact ⟨_, _, _, rfl, rfl, rfl⟩

/-! ### What a step does -/

theorem step_waits (s : State) (h : s.pending = []) : step s = .next s := by
  simp [step, h, waitForHost]

theorem step_command (s : State) (w : Word) (rest : List HostAction)
    (h : s.pending = .command w :: rest) : step s = runWord w { s with pending := rest } := by
  simp [step, h]

theorem step_reset (s : State) (rest : List HostAction) (h : s.pending = .reset :: rest) :
    step s = .next (takeReset { s with pending := rest }) := by
  simp [step, h]

theorem runWord_legal (w : Word) (i : Instr) (s : State) (h : decode w = .ok i) :
    runWord w s = exec i s := by
  simp [runWord, h]

theorem runWord_illegal (w : Word) (e : Illegal) (s : State) (h : decode w = .error e) :
    runWord w s = .next (fail .enc s) := by
  simp [runWord, h, execIllegal]

end Sys2Proof.Machine
end

