-- ==== Sys2Proof/Laws/Exec.lean ====
section
/-! SUPPORT. Everything one command can do, said once: `ExecEffect s i t` lists the cases of `exec i s`, and
`exec_effect` says that each next state is one of them. Proofs over all commands split on it. -/

namespace Sys2Proof.Machine

/-- The possible next states `t` of a command `i` executed at `s`, one constructor per way it can end. -/
inductive ExecEffect (s : State) : Instr → State → Prop where
  | nop : ExecEffect s .nop (s.reply .ok 0#32)
  | clr : ExecEffect s .clr ((clearMessage s).reply .ok 0#32)
  | pushsEnded (sym : Symbol) (he : s.ended = true) :
      ExecEffect s (.pushs sym) ({ s with err := s.err ||| 0b010000#6 }.reply .seq 0#32)
  | pushsOpen (sym : Symbol) (he : s.ended = false) : ExecEffect s (.pushs sym) (accept sym s)
  | pushcEnded (chr : Byte) (he : s.ended = true) :
      ExecEffect s (.pushc chr) ({ s with err := s.err ||| 0b010000#6 }.reply .seq 0#32)
  | pushcAbsent (chr : Byte) (he : s.ended = false) (ha : alpha chr = none) :
      ExecEffect s (.pushc chr)
        ({ s with incnt := s.incnt + 1#32, err := s.err ||| 0b000010#6 }.reply .char 0#32)
  | pushcOpen (chr : Byte) (sym : Symbol) (he : s.ended = false) (ha : alpha chr = some sym) :
      ExecEffect s (.pushc chr) (accept sym s)
  | endOk (hl : lengthStatus s.incnt = .ok) :
      ExecEffect s .endMsg ((endMessage s).reply .ok s.bytecnt)
  | endLen (hl : lengthStatus s.incnt = .len) :
      ExecEffect s .endMsg ({ endMessage s with err := s.err ||| 0b000100#6 }.reply .len s.bytecnt)
  | setcx (val : BitVec 16) : ExecEffect s (.setcx val) ({ s with cx := val }.reply .ok 0#32)
  | setcy (val : BitVec 16) : ExecEffect s (.setcy val) ({ s with cy := val }.reply .ok 0#32)
  | setr (rad : BitVec 15) : ExecEffect s (.setr rad) ({ s with r := rad }.reply .ok 0#32)
  | setn (nf : BitVec 24) : ExecEffect s (.setn nf) ({ s with nframes := nf }.reply .ok 0#32)
  | mapa (ang : Angle) : ExecEffect s (.mapa ang) (point ang s)
  | mapsInRange (slot : BitVec 3) (frm : BitVec 24) (hf : frm.toNat < s.nframes.toNat) :
      ExecEffect s (.maps slot frm) (point (slotAngle slot frm s.nframes) s)
  | mapsRefused (slot : BitVec 3) (frm : BitVec 24) (hf : s.nframes.toNat ≤ frm.toNat) :
      ExecEffect s (.maps slot frm) ({ s with err := s.err ||| 0b001000#6 }.reply .arg 0#32)
  | rdreg (idx : BitVec 4) (v : Word) (hv : regval idx s = some v) :
      ExecEffect s (.rdreg idx) (s.reply .ok v)
  | rdregReserved (idx : BitVec 4) (hv : regval idx s = none) :
      ExecEffect s (.rdreg idx) ({ s with err := s.err ||| 0b001000#6 }.reply .arg 0#32)
  | eclr (mask : BitVec 6) :
      ExecEffect s (.eclr mask) ({ s with err := s.err &&& ~~~mask }.reply .ok (statusWord s))

/-- Each next state of a command is one of the listed cases. -/
theorem exec_effect {i : Instr} {s t : State} (h : exec i s = .next t) : ExecEffect s i t := by
  cases i with
  | nop => obtain rfl : _ = t := by simpa [exec, execNop, respond_ok_eq] using h
           exact .nop
  | clr => obtain rfl : _ = t := by simpa [exec, execClr, respond_ok_eq] using h
           exact .clr
  | pushs sym =>
    cases he : s.ended with
    | true => obtain rfl : _ = t := by simpa [exec, execPushs, he, fail_eq_reply] using h
              simpa [he] using ExecEffect.pushsEnded sym he
    | false => obtain rfl : _ = t := by simpa [exec, execPushs, he] using h
               exact .pushsOpen sym he
  | pushc chr =>
    cases he : s.ended with
    | true => obtain rfl : _ = t := by simpa [exec, execPushc, he, fail_eq_reply] using h
              simpa [he] using ExecEffect.pushcEnded chr he
    | false =>
      cases ha : alpha chr with
      | none => obtain rfl : _ = t := by simpa [exec, execPushc, he, ha, fail_eq_reply, countItem] using h
                simpa [he] using ExecEffect.pushcAbsent chr he ha
      | some sym => obtain rfl : _ = t := by simpa [exec, execPushc, he, ha] using h
                    exact .pushcOpen chr sym he ha
  | endMsg =>
    obtain rfl : _ = t := by simpa [exec, execEnd] using h
    rcases lengthStatus_cases s.incnt with hl | hl
    · simpa [hl, respond_ok_eq] using ExecEffect.endOk hl
    · simpa [hl, respond_eq_reply] using ExecEffect.endLen hl
  | setcx val => obtain rfl : _ = t := by simpa [exec, execSetcx, respond_ok_eq] using h
                 exact .setcx val
  | setcy val => obtain rfl : _ = t := by simpa [exec, execSetcy, respond_ok_eq] using h
                 exact .setcy val
  | setr rad => obtain rfl : _ = t := by simpa [exec, execSetr, respond_ok_eq] using h
                exact .setr rad
  | setn nf => obtain rfl : _ = t := by simpa [exec, execSetn, respond_ok_eq] using h
               exact .setn nf
  | mapa ang => obtain rfl : _ = t := by simpa [exec, execMapa] using h
                exact .mapa ang
  | maps slot frm =>
    by_cases hf : frm.toNat < s.nframes.toNat
    · have hr := (frameInRange_iff _ _).2 hf
      obtain rfl : _ = t := by simpa [exec, execMaps, hr] using h
      exact .mapsInRange slot frm hf
    · have hr : frameInRange frm s.nframes = false := by
        rw [Bool.eq_false_iff, Ne, frameInRange_iff]
        exact hf
      obtain rfl : _ = t := by simpa [exec, execMaps, hr, fail_eq_reply] using h
      exact .mapsRefused slot frm (by omega)
  | rdreg idx =>
    cases hv : regval idx s with
    | none => obtain rfl : _ = t := by simpa [exec, execRdreg, hv, fail_eq_reply] using h
              exact .rdregReserved idx hv
    | some v => obtain rfl : _ = t := by simpa [exec, execRdreg, hv, respond_ok_eq] using h
                exact .rdreg idx v hv
  | eclr mask => obtain rfl : _ = t := by simpa [exec, execEclr, respond_ok_eq, clearSticky] using h
                 exact .eclr mask

/-- ACCEPT counts the item, may write ACC, CNT and BYTECNT, and responds OK. -/
theorem accept_writes (sym : Symbol) (s : State) :
    ∃ acc cnt bytecnt d, accept sym s =
      { s with incnt := s.incnt + 1#32, acc := acc, cnt := cnt, bytecnt := bytecnt }.reply .ok d := by
  by_cases h : 3 ≤ s.cnt.toNat
  · exact ⟨_, _, _, _, accept_emits sym s h⟩
  · exact ⟨_, _, s.bytecnt, _, accept_holds sym s (by omega)⟩

/-- POINT writes LASTANG and responds OK, or WRAP with its sticky bit, with the same data. -/
theorem point_cases (a : Angle) (s : State) :
    let xs := coordinate s.cx (cosq a) s.r
    let ys := coordinate s.cy (sinq a) s.r
    (pointStatus xs ys = .ok ∧ point a s = { s with lastang := a }.reply .ok (pointData xs ys)) ∨
      (pointStatus xs ys = .wrap ∧ point a s =
        { s with lastang := a, err := s.err ||| 0b100000#6 }.reply .wrap (pointData xs ys)) := by
  intro xs ys
  rcases pointStatus_cases xs ys with h | h
  · exact .inl ⟨h, by simp [point, xs, ys] at h ⊢; simp [h, respond_ok_eq]⟩
  · exact .inr ⟨h, by simp [point, xs, ys] at h ⊢; simp [h, respond_eq_reply]⟩

/-- A step that takes a command word either answers ENC and changes nothing else, or has an effect of
the command the word decodes to. -/
theorem step_effect {s t : State} {w : Word} {rest : List HostAction}
    (hp : s.pending = .command w :: rest) (h : step s = .next t) :
    (∃ e, decode w = .error e ∧
      t = { s with pending := rest, err := s.err ||| 0b000001#6 }.reply .enc 0#32) ∨
      ∃ i, decode w = .ok i ∧ ExecEffect { s with pending := rest } i t := by
  rw [step_command s w rest hp] at h
  cases hd : decode w with
  | error e =>
    rw [runWord_illegal w e _ hd] at h
    exact .inl ⟨e, rfl, by simpa [fail_eq_reply] using (Host.Outcome.next.inj h).symm⟩
  | ok i =>
    rw [runWord_legal w i _ hd] at h
    exact .inr ⟨i, rfl, exec_effect h⟩

end Sys2Proof.Machine
end

