-- ==== Sys2Proof/Laws/Host.lean ====
section
/-! SUPPORT. What the host's reading of a message (spec/40_repacker.md R120) can answer, said once: which
responses count, when a message is valid, and the two cases of `hostResult`. -/

namespace Sys2Proof.Machine

@[simp] theorem pushResponses_nil (rs : List Response) : pushResponses [] rs = [] := rfl

@[simp] theorem pushResponses_nil_right (ws : List Word) : pushResponses ws [] = [] := by
  simp [pushResponses]

@[simp] theorem pushResponses_cons (w : Word) (ws : List Word) (r : Response) (rs : List Response) :
    pushResponses (w :: ws) (r :: rs) =
      if isPush w = true then r :: pushResponses ws rs else pushResponses ws rs := by
  cases h : isPush w <;> simp [pushResponses, h]

/-- A word whose opcode field is that of a push is one, whatever its other bits. -/
theorem isPush_iff (w : Word) :
    isPush w = true ↔ opcodeOf (opField w) = some .pushs ∨ opcodeOf (opField w) = some .pushc := by
  unfold isPush
  split <;> simp_all

theorem messageValid_iff (ws : List Word) (rs : List Response) (atEnd : Response) :
    messageValid ws rs atEnd = true ↔
      atEnd.status = .ok ∧ ∀ r ∈ pushResponses ws rs, r.status = .ok := by
  simp [messageValid]

theorem hostResult_of_valid {ws : List Word} {rs : List Response} {atEnd : Response}
    (h : messageValid ws rs atEnd = true) : hostResult ws rs atEnd = .ok (messageBytes ws rs) := by
  simp [hostResult, h]

theorem hostResult_of_invalid {ws : List Word} {rs : List Response} {atEnd : Response}
    (h : messageValid ws rs atEnd = false) :
    hostResult ws rs atEnd = .error (hostDiagnosis ws rs atEnd) := by
  simp [hostResult, h]

/-- The host reads bytes of valid messages only, and then the bytes the pushes carried. -/
theorem hostResult_ok_iff (ws : List Word) (rs : List Response) (atEnd : Response) (bs : List Nat) :
    hostResult ws rs atEnd = .ok bs ↔ messageValid ws rs atEnd = true ∧ messageBytes ws rs = bs := by
  cases h : messageValid ws rs atEnd <;> simp [hostResult, h]

/-- A push that did not respond OK makes the message invalid, whatever END responded. -/
theorem messageValid_false_of_push {ws : List Word} {rs : List Response} {atEnd r : Response}
    (hr : r ∈ pushResponses ws rs) (hs : r.status ≠ .ok) : messageValid ws rs atEnd = false := by
  cases h : messageValid ws rs atEnd with
  | false => rfl
  | true => exact absurd (((messageValid_iff ws rs atEnd).1 h).2 r hr) hs

end Sys2Proof.Machine
end

