-- ==== Sys2Proof/Laws/Trig.lean ====
section
/-! SUPPORT. The coefficients of the cosine series of Machine/Trig.lean are what their names say, and the four
quadrants of COSQ (spec/41_mapper.md R147, R150). -/

namespace Sys2Proof.Machine

theorem fact18_eq_factorial : fact18 = Nat.factorial 18 := by decide

/-- Each coefficient is `18! / (2n)!`, exactly. -/
theorem cosCoeff_mul_factorial (n : Nat) (h : n < 10) :
    cosCoeff n * Nat.factorial (2 * n) = Nat.factorial 18 := by
  revert n
  decide

/-- The rounding of `nearest` is to within one half. -/
theorem nearest_bounds (num : Int) (den : Nat) (h : 0 < den) :
    2 * num - den < 2 * den * nearest num den ∧ 2 * den * nearest num den ≤ 2 * num + den := by
  have hpos : (0 : Int) < ((2 * den : Nat) : Int) := by exact_mod_cast Nat.mul_pos two_pos h
  have hdiv := Int.mul_ediv_add_emod (2 * num + den) ((2 * den : Nat) : Int)
  have hlo := Int.emod_nonneg (2 * num + den) hpos.ne'
  have hhi := Int.emod_lt_of_pos (2 * num + den) hpos
  unfold nearest
  push_cast at *
  constructor <;> linarith

theorem cosq_first (a : Angle) (h : a.toNat ≤ 16384) : cosq a = cosQuarter a.toNat := by
  simp [cosq, h]

theorem cosq_second (a : Angle) (h : 16384 < a.toNat) (h' : a.toNat ≤ 32768) :
    cosq a = -cosQuarter (32768 - a.toNat) := by
  simp [cosq, show ¬ a.toNat ≤ 16384 by omega, h']

theorem cosq_third (a : Angle) (h : 32768 < a.toNat) (h' : a.toNat ≤ 49152) :
    cosq a = -cosQuarter (a.toNat - 32768) := by
  simp [cosq, show ¬ a.toNat ≤ 16384 by omega, show ¬ a.toNat ≤ 32768 by omega, h']

theorem cosq_fourth (a : Angle) (h : 49152 < a.toNat) : cosq a = cosQuarter (65536 - a.toNat) := by
  simp [cosq, show ¬ a.toNat ≤ 16384 by omega, show ¬ a.toNat ≤ 32768 by omega,
    show ¬ a.toNat ≤ 49152 by omega]

end Sys2Proof.Machine
end

