-- ==== Sys2Proof/Tests/Slice0.lean ====
section
/-! SUPPORT. Small tests, each about one step, with expected values from spec/95_test_vectors.md and the
worked examples of the rules; ill-formed assembly lines that the check refuses; words written out bit by bit
from spec/30_encoding.md R81; and, for each obligation with hypotheses, a witness that meets them together. -/

namespace Sys2Proof.Tests

open Sys2Proof Sys2Proof.Machine

/-- The next state of an outcome. -/
def nextState : Host.Outcome State Fault Refusal → Option State
  | .next s => some s
  | .fault _ => none
  | .refused _ => none

/-- The state after the host issues one word. -/
def after (s : State) (w : Nat) : Option State := nextState (step (s.withFetchWord 32 w))

/-- The last response of the state after the host issues one word. -/
def answer (s : State) (w : Nat) : Option Response := (after s w).bind (·.responses.getLast?)

/-- A state with the circle of the vectors' set-up SU200: center (200, 200), radius 150. -/
def su200 : State := { State.reset with cx := 200#16, cy := 200#16, r := 150#15 }

/-- A state in the middle of a message, 3 bits pending, all ones (vector P-27). -/
def pending3 : State := { State.reset with acc := 0b111#12, cnt := 3#4, bytecnt := 0xFFFFFFFF#32 }

/-- A state whose message has ended with the lengths of `"ABCDEFGH"` (vector P-9). -/
def ended8 : State :=
  { State.reset with incnt := 8#32, bytecnt := 5#32, ended := true }

/-! ### Assembly lines the check refuses (R89) -/

theorem test_wellFormed_refuses_pushs : AsmLine.wellFormed (.pushs 32) = false ∧ AsmLine.wellFormed (.pushs (-1)) = false := by decide
theorem test_wellFormed_refuses_pushc : AsmLine.wellFormed (.pushc 256) = false ∧ AsmLine.wellFormed (.pushc (-1)) = false := by decide
theorem test_wellFormed_refuses_pushcChar : AsmLine.wellFormed (.pushcChar 'é') = false := by decide
theorem test_wellFormed_refuses_setcx : AsmLine.wellFormed (.setcx 32768) = false ∧ AsmLine.wellFormed (.setcx (-32769)) = false := by decide
theorem test_wellFormed_refuses_setcy : AsmLine.wellFormed (.setcy 32768) = false ∧ AsmLine.wellFormed (.setcy (-32769)) = false := by decide
theorem test_wellFormed_refuses_setr : AsmLine.wellFormed (.setr 32768) = false ∧ AsmLine.wellFormed (.setr (-1)) = false := by decide
theorem test_wellFormed_refuses_setn : AsmLine.wellFormed (.setn 16777216) = false ∧ AsmLine.wellFormed (.setn (-1)) = false := by decide
theorem test_wellFormed_refuses_mapa : AsmLine.wellFormed (.mapa 65536) = false ∧ AsmLine.wellFormed (.mapa (-1)) = false := by decide
theorem test_wellFormed_refuses_maps : AsmLine.wellFormed (.maps 8 0) = false ∧ AsmLine.wellFormed (.maps 0 16777216) = false ∧ AsmLine.wellFormed (.maps (-1) 0) = false ∧ AsmLine.wellFormed (.maps 0 (-1)) = false := by decide
theorem test_wellFormed_refuses_rdreg : AsmLine.wellFormed (.rdreg 16) = false ∧ AsmLine.wellFormed (.rdreg (-1)) = false := by decide
theorem test_wellFormed_refuses_eclr : AsmLine.wellFormed (.eclr 64) = false ∧ AsmLine.wellFormed (.eclr (-1)) = false := by decide
theorem test_wellFormed_refuses_pushstr : AsmLine.wellFormed (.pushstr ['A', 'é']) = false := by decide
theorem test_wellFormed_refuses_setc : AsmLine.wellFormed (.setc 0 32768) = false ∧ AsmLine.wellFormed (.setc (-32769) 0) = false := by decide

/-! ### Words written out from the bit diagrams of R81 -/

theorem test_decode_nop : decodeTableWord 32 0b00000000000000000000000000000000 = some .nop := by decide
theorem test_decode_clr : decodeTableWord 32 0b00010000000000000000000000000000 = some .clr := by decide
theorem test_decode_pushs : decodeTableWord 32 0b00100000000000000000000000010110 = some (.pushs 22#5) := by decide
theorem test_decode_pushc : decodeTableWord 32 0b00110000000000000000000010000001 = some (.pushc 0x81#8) := by decide
theorem test_decode_end : decodeTableWord 32 0b01000000000000000000000000000000 = some .endMsg := by decide
theorem test_decode_setcx : decodeTableWord 32 0b01010000000000001000000000000001 = some (.setcx (BitVec.ofInt 16 (-32767))) := by decide
theorem test_decode_setcy : decodeTableWord 32 0b01100000000000000100000000000001 = some (.setcy 16385#16) := by decide
theorem test_decode_setr : decodeTableWord 32 0b01110000000000000100000000000001 = some (.setr 16385#15) := by decide
theorem test_decode_setn : decodeTableWord 32 0b10000000100000000000000000000001 = some (.setn 8388609#24) := by decide
theorem test_decode_mapa : decodeTableWord 32 0b10010000000000001000000000000001 = some (.mapa 32769#16) := by decide
theorem test_decode_maps : decodeTableWord 32 0b10100110100000000000000000000001 = some (.maps 6#3 8388609#24) := by decide
theorem test_decode_rdreg : decodeTableWord 32 0b10110000000000000000000000001001 = some (.rdreg 9#4) := by decide
theorem test_decode_eclr : decodeTableWord 32 0b11000000000000000000000000100001 = some (.eclr 0b100001#6) := by decide
/-- Both reasons a word is illegal (R84, R85; the encoding vectors). -/
theorem test_decode_illegal : decode 0xE1234567#32 = .error .reservedOpcode ∧ decode 0x3000FF41#32 = .error .reservedBits ∧ decode 0x70008000#32 = .error .reservedBits := by decide

/-! ### One step each -/

/-- K-1, K-2. -/
theorem test_nop : answer su200 0x00000000 = some ⟨.ok, 0#32⟩ ∧ answer State.reset 0x00000001 = some ⟨.enc, 0#32⟩ := by decide
/-- The illegal word sets STATUS bit 0 alone (K-2). -/
theorem test_illegal_sets_enc : (after State.reset 0xFFFFFFFF).map (·.err) = some 0b000001#6 := by decide
/-- P-14, P-30: CLR empties the re-packer and keeps CX. -/
theorem test_clr : (after { ended8 with err := 0b010001#6, cx := 200#16 } 0x10000000).map (fun t => (t.incnt, t.ended, t.err, t.cx)) = some (0#32, false, 0#6, 200#16) := by decide
/-- P-27: 3 pending bits, BYTECNT wraps, byte 0xE0. -/
theorem test_pushs_emits : answer pending3 0x20000000 = some ⟨.ok, 0x1E0#32⟩ ∧ (after pending3 0x20000000).map (fun t => (t.acc, t.cnt, t.bytecnt)) = some (0#12, 0#4, 0#32) := by decide
/-- P-25: INCNT wraps, no byte. -/
theorem test_pushs_holds : (after { State.reset with incnt := 0xFFFFFFFF#32 } 0x20000000).map (fun t => (t.incnt, t.cnt, t.bytecnt)) = some (0#32, 5#4, 0#32) := by decide
/-- P-4: CNT = 7 before the push, byte 0x0A, 4 bits left. -/
theorem test_pushc_full : answer { State.reset with acc := 0b0000101#12, cnt := 7#4 } 0x30000044 = some ⟨.ok, 0x10A#32⟩ ∧ (after { State.reset with acc := 0b0000101#12, cnt := 7#4 } 0x30000044).map (fun t => (t.acc, t.cnt)) = some (0b0110#12, 4#4) := by decide
/-- P-19, P-12: an absent character counts, but not after END. -/
theorem test_pushc_refused : (after State.reset 0x30000061).map (fun t => (t.incnt, t.cnt, t.err)) = some (1#32, 0#4, 0b000010#6) ∧ (after ended8 0x30000061).map (fun t => (t.incnt, t.err)) = some (8#32, 0b010000#6) := by decide
/-- P-24 (its END), P-23: the remainder is dropped, LEN. -/
theorem test_end_drops : answer { State.reset with acc := 5#12, cnt := 7#4, incnt := 3#32, bytecnt := 1#32 } 0x40000000 = some ⟨.len, 1#32⟩ ∧ (after { State.reset with acc := 5#12, cnt := 7#4, incnt := 3#32, bytecnt := 1#32 } 0x40000000).map (fun t => (t.drop, t.acc, t.cnt, t.ended)) = some (7#4, 0#12, 0#4, true) := by decide
/-- P-10: END again. -/
theorem test_end_again : answer { ended8 with drop := 3#4 } 0x40000000 = some ⟨.ok, 5#32⟩ ∧ (after { ended8 with drop := 3#4 } 0x40000000).map (·.drop) = some 3#4 := by decide
/-- M28. -/
theorem test_setcx : (after su200 0x5000FFFF).map (fun t => (t.cx, t.cy)) = some (0xFFFF#16, 200#16) := by decide
theorem test_setcy : (after su200 0x60008000).map (fun t => (t.cx, t.cy)) = some (200#16, 0x8000#16) := by decide
/-- M29: bit 15 set. -/
theorem test_setr : (after su200 0x70007FFF).map (·.r) = some 32767#15 ∧ (after su200 0x70008000).map (·.r) = some 150#15 := by decide
/-- M30. -/
theorem test_setn : (after su200 0x80FFFFFF).map (·.nframes) = some 16777215#24 := by decide
/-- M21: xs = 32768 wraps. -/
theorem test_mapa_wraps : answer { State.reset with cx := 32767#16, r := 1#15 } 0x90000000 = some ⟨.wrap, 0x00008000#32⟩ ∧ (after { State.reset with cx := 32767#16, r := 1#15 } 0x90000000).map (·.err) = some 0b100000#6 := by decide
/-- M25, M26: exact halves go upward. -/
theorem test_mapa_halves : answer { State.reset with r := 1#15 } 0x90002AAB = some ⟨.ok, 0x00010001#32⟩ ∧ answer { State.reset with r := 1#15 } 0x90005555 = some ⟨.ok, 0x00010000#32⟩ := by decide
/-- M10: slot 3 rotated past angle 0. -/
theorem test_maps_rotates : answer { su200 with nframes := 5#24 } 0xA3000004 = some ⟨.ok, 0x00A5015A#32⟩ ∧ (after { su200 with nframes := 5#24 } 0xA3000004).map (·.lastang) = some 63079#16 := by decide
/-- M12, M15: the first frame index refused, the largest offset. -/
theorem test_maps_bounds : answer { su200 with nframes := 5#24 } 0xA0000005 = some ⟨.arg, 0#32⟩ ∧ (after { su200 with nframes := 16777215#24 } 0xA7FFFFFE).map (·.lastang) = some 28673#16 := by decide
/-- P2 step 4, K-14: PEND and a sign-extended center. -/
theorem test_rdreg : answer { State.reset with acc := 5#12, cnt := 7#4 } 0xB0000003 = some ⟨.ok, 0x00070005#32⟩ ∧ answer { State.reset with cy := 0x8000#16 } 0xB0000005 = some ⟨.ok, 0xFFFF8000#32⟩ := by decide
/-- K-4, K-3: a reserved index and ID. -/
theorem test_rdreg_bounds : answer State.reset 0xB000000A = some ⟨.arg, 0#32⟩ ∧ answer State.reset 0xB0000008 = some ⟨.ok, 0x52503538#32⟩ ∧ answer State.reset 0xB0000009 = some ⟨.ok, 0#32⟩ := by decide
/-- K-10, K-11: chosen bits are cleared, ENDED is not. -/
theorem test_eclr : (after { State.reset with err := 0b001001#6 } 0xC0000001).map (·.err) = some 0b001000#6 ∧ answer { State.reset with err := 0b000100#6, ended := true } 0xC000003F = some ⟨.ok, 0x104#32⟩ := by decide
/-- COSQ and SINQ from the table of spec/95, the angle nearest to a halfway case among them. -/
theorem test_trig : cosq 58646#16 = 12938 ∧ sinq 58646#16 = -10053 ∧ cosq 1638#16 = 16182 ∧ sinq 1#16 = 2 ∧ cosq 10923#16 = 8192 ∧ sinq 36864#16 = -6270 := by decide
/-- OFF for NFRAMES = 7 (spec/95). -/
theorem test_offsets : ((List.range 7).map fun f => rotationOffset (BitVec.ofNat 24 f) 7#24) = [0, 1170, 2340, 3510, 4681, 5851, 7021] := by decide
/-- The source's codec on its own example (W1). -/
theorem test_codec : unpack 8 (pack 5 [3, 4, 5, 6, 7, 8, 9, 10]) = [0x19, 0x0A, 0x63, 0xA1, 0x2A] := by decide
/-- Eight pushes and an OK at END, but one more push that responded ENC or CHAR: invalid (R120). -/
theorem test_messageValid :
    let oks := List.replicate 8 (Response.mk .ok 0#32)
    let words := List.replicate 8 0x20000000#32
    messageValid words oks ⟨.ok, 5#32⟩ = true ∧ messageValid words oks ⟨.len, 5#32⟩ = false ∧
    messageValid (0x20000020#32 :: words) (⟨.enc, 0#32⟩ :: oks) ⟨.ok, 5#32⟩ = false ∧
    messageValid (0x30000061#32 :: words) (⟨.char, 0#32⟩ :: oks) ⟨.ok, 5#32⟩ = false ∧
    messageValid (0xD0000000#32 :: words) (⟨.enc, 0#32⟩ :: oks) ⟨.ok, 5#32⟩ = true ∧
    statusValid ⟨.ok, 5#32⟩ 0x00000101#32 = false ∧ statusValid ⟨.ok, 5#32⟩ 0x00000102#32 = false ∧
    statusValid ⟨.ok, 5#32⟩ 0x00000120#32 = true := by decide
/-- The source's diagnosis: LEN before CHAR, and none for an illegal push alone (R120). -/
theorem test_hostDiagnosis :
    hostDiagnosis [0x30000061#32] [⟨.char, 0#32⟩] ⟨.len, 0#32⟩ = some .invalidInputLength ∧
    hostDiagnosis [0x30000061#32] [⟨.char, 0#32⟩] ⟨.ok, 0#32⟩ = some .unknownCharacter ∧
    hostDiagnosis [0x20000020#32] [⟨.enc, 0#32⟩] ⟨.ok, 0#32⟩ = none ∧
    statusDiagnosis ⟨.ok, 0#32⟩ 0x00000102#32 = some .unknownCharacter := by decide

/-! ### Witnesses: states and operands that meet an obligation's hypotheses together -/

/-- A state whose host has issued one word. -/
def issued (s : State) (w : Nat) : State := s.withFetchWord 32 w

theorem witness_ResetSetsEveryRegister : ∃ s rest, State.pending s = .reset :: rest ∧ s.cx ≠ 0#16 :=
  ⟨{ su200 with pending := [.reset] }, [], rfl, by decide⟩
theorem witness_WaitsForTheHost : su200.pending = [] := rfl
theorem witness_StepRunsDecodedCommand :
    (issued su200 0x90000000).pending = .command 0x90000000#32 :: [] ∧ decode 0x90000000#32 = .ok (.mapa 0#16) := ⟨rfl, by decide⟩
theorem witness_EveryWordIsAnsweredOnce : (issued ended8 0xFFFFFFFF).pending = .command 0xFFFFFFFF#32 :: [] := rfl
/-- A word with a reserved opcode, one with a reserved bit, and one with neither. -/
theorem witness_IllegalWordsRespondEnc :
    0xD ≤ (0xD0000000#32).toNat / 2 ^ 28 ∧
    ((0xA8000000#32).toNat / 2 ^ 28 = 0xA ∧ (0xA8000000#32 &&& 0x08000000#32) ≠ 0#32) ∧
    ((0xA7FFFFFF#32).toNat / 2 ^ 28 = 0xA ∧ (0xA7FFFFFF#32 &&& 0x08000000#32) = 0#32) := by decide
theorem witness_OperandsAreTheirFields :
    decode 0x2000001F#32 = .ok (.pushs 31#5) ∧ decode 0x300000FF#32 = .ok (.pushc 0xFF#8) ∧
    decode 0x50008000#32 = .ok (.setcx 0x8000#16) ∧ decode 0x60007FFF#32 = .ok (.setcy 0x7FFF#16) ∧
    decode 0x70007FFF#32 = .ok (.setr 0x7FFF#15) ∧ decode 0x80FFFFFF#32 = .ok (.setn 0xFFFFFF#24) ∧
    decode 0x9000FFFF#32 = .ok (.mapa 0xFFFF#16) ∧ decode 0xA7FFFFFF#32 = .ok (.maps 7#3 0xFFFFFF#24) ∧
    decode 0xB000000F#32 = .ok (.rdreg 15#4) ∧ decode 0xC000003F#32 = .ok (.eclr 63#6) := by decide
theorem witness_DecodeThenEncode : decode 0xA3000001#32 = .ok (.maps 3#3 1#24) := by decide
theorem witness_NopCommand : (0x00000001#32).extractLsb' 28 4 = 0x0#4 ∧ (0x00000001#32).extractLsb' 0 28 ≠ 0#28 := by decide
theorem witness_ClrCommand : (0x18000000#32).extractLsb' 28 4 = 0x1#4 ∧ (0x18000000#32).extractLsb' 0 28 ≠ 0#28 := by decide
theorem witness_EndCommand_word : (0x40000001#32).extractLsb' 28 4 = 0x4#4 ∧ (0x40000001#32).extractLsb' 0 28 ≠ 0#28 := by decide
theorem witness_PushsCommand_word : (0x20000020#32).extractLsb' 28 4 = 0x2#4 ∧ (0x20000020#32).extractLsb' 5 23 ≠ 0#23 := by decide
theorem witness_PushcCommand_word : (0x30000141#32).extractLsb' 28 4 = 0x3#4 ∧ (0x30000141#32).extractLsb' 8 20 ≠ 0#20 := by decide
theorem witness_SetcxCommand_word : (0x50010000#32).extractLsb' 28 4 = 0x5#4 ∧ (0x50010000#32).extractLsb' 16 12 ≠ 0#12 := by decide
theorem witness_SetcyCommand_word : (0x68000000#32).extractLsb' 28 4 = 0x6#4 ∧ (0x68000000#32).extractLsb' 16 12 ≠ 0#12 := by decide
theorem witness_SetrCommand_word : (0x70008000#32).extractLsb' 28 4 = 0x7#4 ∧ (0x70008000#32).extractLsb' 15 13 ≠ 0#13 := by decide
theorem witness_SetnCommand_word : (0x81000000#32).extractLsb' 28 4 = 0x8#4 ∧ (0x81000000#32).extractLsb' 24 4 ≠ 0#4 := by decide
theorem witness_MapaCommand_word : (0x90010000#32).extractLsb' 28 4 = 0x9#4 ∧ (0x90010000#32).extractLsb' 16 12 ≠ 0#12 := by decide
theorem witness_MapsCommand_word : (0xA8000000#32).extractLsb' 28 4 = 0xA#4 ∧ (0xA8000000#32).extractLsb' 27 1 ≠ 0#1 := by decide
theorem witness_RdregCommand_word : (0xB0000010#32).extractLsb' 28 4 = 0xB#4 ∧ (0xB0000010#32).extractLsb' 4 24 ≠ 0#24 := by decide
theorem witness_EclrCommand_word : (0xC0000040#32).extractLsb' 28 4 = 0xC#4 ∧ (0xC0000040#32).extractLsb' 6 22 ≠ 0#22 := by decide
/-- The boundary indices 10 and 15. -/
theorem witness_RdregCommand_reserved : 10 ≤ (10#4).toNat ∧ 10 ≤ (15#4).toNat := by decide
theorem witness_ReservedBitsReadZero : State.Inv { State.reset with acc := 127#12, cnt := 7#4 } := by decide
theorem witness_PushsCommand : ended8.ended = true ∧ pending3.ended = false := by decide
/-- After END; an absent character; the first and the last character of the alphabet. -/
theorem witness_PushcCommand :
    ended8.ended = true ∧ State.reset.ended = false ∧ alpha 0x61#8 = none ∧ alpha 0x2B#8 = some 0#5 ∧ alpha 0x7D#8 = some 31#5 := by decide
/-- Both clauses at their boundary: CNT = 3 and CNT = 7 emit, CNT = 2 and CNT = 0 hold. -/
theorem witness_AcceptProcedure :
    (State.Inv pending3 ∧ pending3.ended = false ∧ 8 ≤ pending3.cnt.toNat + 5) ∧
    State.Inv { State.reset with acc := 127#12, cnt := 7#4 } ∧
    (State.Inv { State.reset with acc := 3#12, cnt := 2#4 } ∧ (2#4).toNat + 5 < 8) ∧
    State.Inv State.reset ∧ alpha 0x41#8 = some 3#5 := by decide
theorem witness_AcceptMovesBitsInOrder :
    State.Inv pending3 ∧ pending3.ended = false ∧ 3 ≤ pending3.cnt.toNat ∧
      (nextState (exec (.pushs 0#5) pending3)).isSome = true ∧
      State.Inv State.reset ∧ State.reset.cnt.toNat < 3 ∧ alpha 0x2B#8 = some 0#5 ∧
      (nextState (exec (.pushs 0#5) State.reset)).isSome = true ∧
      (nextState (exec (.pushc 0x2B#8) State.reset)).isSome = true := by decide
/-- Lengths 0, 7 and 8. -/
theorem witness_EndCommand :
    State.reset.incnt.toNat = 0 ∧ (7#32).toNat % 8 ≠ 0 ∧ ¬ (ended8.incnt.toNat = 0 ∨ ended8.incnt.toNat % 8 ≠ 0) := by decide
/-- A coordinate one beyond each end of the range, and one at the end. -/
theorem witness_MapaCommand :
    (32767#16).toInt + (cosq 0#16 * ((1#15).toNat : Int) + 8192) >>> (14 : Nat) = 32768 ∧
    (0x8000#16).toInt + (sinq 49152#16 * ((1#15).toNat : Int) + 8192) >>> (14 : Nat) = -32769 ∧
    (32766#16).toInt + (cosq 0#16 * ((1#15).toNat : Int) + 8192) >>> (14 : Nat) = 32767 := by decide
/-- NFRAMES = 0, FRM = NFRAMES and FRM = NFRAMES - 1. -/
theorem witness_MapsCommand :
    State.reset.nframes.toNat = 0 ∧ (5#24).toNat ≤ (5#24).toNat ∧ (4#24).toNat < (5#24).toNat ∧
    (answer { State.reset with cx := 32767#16, r := 1#15, nframes := 5#24 } 0xA3000000).map (·.status) = some .wrap ∧
    (answer { su200 with nframes := 5#24 } 0xA3000004).map (·.status) = some .ok := by decide
theorem witness_RotationBelow45Degrees :
    (16777214#24).toNat < (16777215#24).toNat ∧
      (nextState (exec (.maps 7#3 16777214#24) { su200 with nframes := 16777215#24 })).isSome = true := by decide
/-- Two different states with the same circle. -/
theorem witness_PointReadsOnlyTheCircle :
    let s' : State := { su200 with acc := 7#12, cnt := 3#4, nframes := 5#24, err := 1#6 }
    s' ≠ su200 ∧ s'.cx = su200.cx ∧ s'.cy = su200.cy ∧ s'.r = su200.r := by decide
theorem witness_MapaNearRealPoint :
    (nextState (exec (.mapa 8192#16) su200)).map (·.responses) = some (su200.responses ++ [⟨.ok, 0x01320132#32⟩]) := by decide
/-- An accepted slot and frame with an OK response, and one with a WRAP response. -/
theorem witness_MapsNearRealPoint :
    (1#24).toNat < (5#24).toNat ∧
    (nextState (exec (.maps 4#3 1#24) { su200 with nframes := 5#24 })).map (·.responses) =
      some (su200.responses ++ [⟨.ok, 0x01480116#32⟩]) ∧
    (answer { State.reset with cx := 32767#16, r := 2#15, nframes := 5#24 } 0xA3000001).map (·.status) =
      some .wrap := by decide
theorem witness_FramePointsInSlotOrder :
    (4#24).toNat < (5#24).toNat ∧ { su200 with nframes := 5#24 }.pending = [] ∧
      byteSlots 0b10100000#8 = [0, 2] := by decide
/-- One response of each status other than OK, with its sticky bit. -/
theorem witness_NonOkEffects :
    answer State.reset 0xD0000000 = some ⟨.enc, 0#32⟩ ∧ answer State.reset 0x30000061 = some ⟨.char, 0#32⟩ ∧
    answer State.reset 0x40000000 = some ⟨.len, 0#32⟩ ∧ answer State.reset 0xB000000F = some ⟨.arg, 0#32⟩ ∧
    answer ended8 0x20000000 = some ⟨.seq, 0#32⟩ ∧
    answer { State.reset with cx := 32767#16, r := 1#15 } 0x90000000 = some ⟨.wrap, 0x00008000#32⟩ := by decide
/-- A step that sets a bit, one that keeps it and one that clears it. -/
theorem witness_StickyRecord :
    (after State.reset 0xB000000F).map (·.err) = some 0b001000#6 ∧
    (after { State.reset with err := 0b001000#6 } 0x00000000).map (·.err) = some 0b001000#6 ∧
    (after { State.reset with err := 0b001000#6 } 0xC0000008).map (·.err) = some 0b000000#6 := by decide
/-- A check of each rank that decides: ENC before SEQ, SEQ before CHAR, then OK. -/
theorem witness_PriorityOfChecks :
    (answer ended8 0x30000161).map (·.status) = some .enc ∧ (answer ended8 0x30000061).map (·.status) = some .seq ∧
    (answer State.reset 0x30000061).map (·.status) = some .char ∧ (answer State.reset 0x30000041).map (·.status) = some .ok := by decide
theorem witness_StickyBitsSteerNothing :
    (Instr.pushs 1#5 ≠ .rdreg 0#4) ∧ ∀ mask, Instr.pushs 1#5 ≠ .eclr mask := by simp
/-- A command that changes each register. -/
theorem witness_WritersOfEachRegister :
    (nextState (exec (.pushs 31#5) State.reset)).map (fun t => (t.acc, t.cnt, t.incnt)) = some (31#12, 5#4, 1#32) ∧
    (nextState (exec (.pushs 0#5) pending3)).map (·.bytecnt) = some 0#32 ∧
    (nextState (exec .endMsg pending3)).map (fun t => (t.ended, t.drop)) = some (true, 3#4) ∧
    (nextState (exec (.setcx 1#16) su200)).map (·.cx) = some 1#16 ∧
    (nextState (exec (.setcy 1#16) su200)).map (·.cy) = some 1#16 ∧
    (nextState (exec (.setr 1#15) su200)).map (·.r) = some 1#15 ∧
    (nextState (exec (.setn 1#24) su200)).map (·.nframes) = some 1#24 ∧
    (nextState (exec (.mapa 1#16) su200)).map (·.lastang) = some 1#16 ∧
    (nextState (exec (.rdreg 10#4) su200)).map (·.err) = some 0b001000#6 ∧
    (nextState (exec (.eclr 1#6) { su200 with err := 1#6 })).map (·.err) = some 0#6 ∧
    (nextState (exec .clr { su200 with err := 1#6 })).map (·.err) = some 0#6 ∧
    (after su200 0x20000020).map (fun t => (t.err, t.responses)) = some (1#6, [⟨.enc, 0#32⟩]) := by decide
theorem witness_UnitsDoNotMeet : (Instr.clr).opcode.isRepacker = true ∧ (Instr.mapa 0#16).opcode.isMapper = true := by decide
theorem witness_UnitsCommute : (Instr.endMsg).opcode.isRepacker = true ∧ (Instr.maps 0#3 0#24).opcode.isMapper = true := by decide
theorem witness_RepeatedCommands :
    (Instr.rdreg 0#4).opcode ∈ [Opcode.nop, .rdreg, .setcx, .setcy, .setr, .setn, .mapa, .maps, .endMsg] := by decide
theorem witness_StepKeepsInvariant :
    State.Inv (issued pending3 0x20000000) ∧ (nextState (step (issued pending3 0x20000000))).isSome = true := by decide
/-- A message of a push, an illegal word, a mapper command and a refused character. -/
theorem witness_StreamEquivalence :
    messageStart State.reset ∧ State.reset.pending = [] ∧
      ∀ w ∈ [0x20000003#32, 0xD0000000#32, 0x90000100#32, 0x30000061#32, 0x20000004#32], staysInMessage w := by
  refine ⟨⟨rfl, rfl, rfl, rfl, rfl, rfl⟩, rfl, ?_⟩
  simp only [List.forall_mem_cons]
  exact ⟨⟨by decide, by decide⟩, ⟨by decide, by decide⟩, ⟨by decide, by decide⟩, ⟨by decide, by decide⟩,
    ⟨by decide, by decide⟩, fun _ h => absurd h List.not_mem_nil⟩
theorem witness_MessageCounts :
    messageStart State.reset ∧ State.reset.pending = [] ∧ (messageSymbols [0x20000003#32]).length < 2 ^ 32 ∧
      (∀ c ∈ [0x41#8, 0x42#8, 0x43#8, 0x44#8, 0x45#8, 0x46#8, 0x47#8, 0x48#8], alpha c ≠ none) ∧
      [0x41#8, 0x42#8, 0x43#8, 0x44#8, 0x45#8, 0x46#8, 0x47#8, 0x48#8].length % 8 = 0 := by
  refine ⟨⟨rfl, rfl, rfl, rfl, rfl, rfl⟩, rfl, ?_, by decide, rfl⟩
  show (1 : Nat) < 2 ^ 32
  norm_num
theorem witness_RoundTripAtWidthFive :
    messageStart { su200 with nframes := 5#24 } ∧ su200.pending = [] ∧ ∀ w ∈ [0x2000001F#32], staysInMessage w := by
  refine ⟨⟨rfl, rfl, rfl, rfl, rfl, rfl⟩, rfl, ?_⟩
  intro w hw
  obtain rfl := List.mem_singleton.1 hw
  exact ⟨by decide, by decide⟩
theorem witness_CountersCountItemsAndBytes :
    messageStart State.reset ∧ State.reset.pending = [] ∧ ∀ w ∈ [0x30000061#32], staysInMessage w := by
  refine ⟨⟨rfl, rfl, rfl, rfl, rfl, rfl⟩, rfl, ?_⟩
  intro w hw
  obtain rfl := List.mem_singleton.1 hw
  exact ⟨by decide, by decide⟩
/-- A string both errors of the source apply to, and one that is accepted. -/
theorem witness_HostReadsTheSourcesResult :
    messageStart State.reset ∧ State.reset.pending = [] ∧ [0x61#8].length < 2 ^ 32 ∧
      (match sourceBytes [0x61#8] with
        | .error e => decide (e = SourceError.invalidInputLength)
        | .ok _ => false) = true ∧
      (match sourceBytes [0x41#8, 0x42#8, 0x43#8, 0x44#8, 0x45#8, 0x46#8, 0x47#8, 0x48#8] with
        | .error _ => false
        | .ok bs => decide (bs = [0x19, 0x0A, 0x63, 0xA1, 0x2A])) = true := by
  refine ⟨⟨rfl, rfl, rfl, rfl, rfl, rfl⟩, rfl, ?_, by decide, by decide⟩
  show (1 : Nat) < 2 ^ 32
  norm_num
/-- A push, an illegal push, an illegal word that is no push and a refused character stay in the message. -/
theorem witness_HostReadsEveryMessage :
    messageStart State.reset ∧ State.reset.pending = [] ∧
      ∀ w ∈ [0x20000003#32, 0x20000020#32, 0xD0000000#32, 0x30000061#32], staysInMessage w := by
  refine ⟨⟨rfl, rfl, rfl, rfl, rfl, rfl⟩, rfl, ?_⟩
  simp only [List.forall_mem_cons]
  exact ⟨⟨by decide, by decide⟩, ⟨by decide, by decide⟩, ⟨by decide, by decide⟩, ⟨by decide, by decide⟩,
    fun _ h => absurd h List.not_mem_nil⟩
/-- From a CLR, a message with each of the four kinds of word and no ECLR. -/
theorem witness_StatusShowsInvalidMessages :
    messageStart su200 ∧ su200.err = 0#6 ∧ su200.pending = [] ∧
      (∀ w ∈ [0x20000003#32, 0x20000020#32, 0xD0000000#32, 0x30000061#32], staysInMessage w) ∧
      ∀ w ∈ [0x20000003#32, 0x20000020#32, 0xD0000000#32, 0x30000061#32],
        ∀ mask, decode w ≠ .ok (.eclr mask) := by
  refine ⟨⟨rfl, rfl, rfl, rfl, rfl, rfl⟩, rfl, rfl, witness_HostReadsEveryMessage.2.2, ?_⟩
  simp only [List.forall_mem_cons]
  exact ⟨by decide, by decide, by decide, by decide, fun _ h => absurd h List.not_mem_nil⟩

end Sys2Proof.Tests
end

namespace Sys2Proof.Proofs
open Sys2Proof.Machine

/-- Settles O5: taking the action leaves `runWord` on the word, and a legal word runs as its command. -/
theorem stepRunsDecodedCommand : Obligations.StepRunsDecodedCommand := by
  intro s w rest i hpending hdecode
  calc step s = runWord w { s with pending := rest } := step_command s w rest hpending
    _ = exec i { s with pending := rest } := runWord_legal w i _ hdecode

end Sys2Proof.Proofs

namespace Sys2Proof.Proofs
open Sys2Proof.Machine

/-! ### What the registers of a unit keep -/

/-- The two states have the same re-packer registers (R77). -/
structure SameRepacker (s t : State) : Prop where
  acc : t.acc = s.acc
  cnt : t.cnt = s.cnt
  incnt : t.incnt = s.incnt
  bytecnt : t.bytecnt = s.bytecnt
  ended : t.ended = s.ended
  drop : t.drop = s.drop

/-- POINT is one response on top of the new LASTANG, so its other registers are those of `s`. -/
theorem point_eq_respond (a : Angle) (s : State) :
    ∃ st d, point a s = respond st d { s with lastang := a } := ⟨_, _, rfl⟩

theorem point_sameRepacker (a : Angle) (s : State) : SameRepacker s (point a s) := by
  obtain ⟨st, d, hpoint⟩ := point_eq_respond a s
  rw [hpoint]
  exact ⟨rfl, rfl, rfl, rfl, rfl, rfl⟩

/-- A command that is not the re-packer's keeps the re-packer's registers (R77). -/
theorem execEffect_sameRepacker {i : Instr} {s t : State} (heff : ExecEffect s i t)
    (hi : i.opcode.isRepacker = false) : SameRepacker s t := by
  cases heff with
  | clr | pushsEnded | pushsOpen | pushcEnded | pushcAbsent | pushcOpen | endOk | endLen => cases hi
  | mapa ang => exact point_sameRepacker ang s
  | mapsInRange slot frm => exact point_sameRepacker _ s
  | _ => exact ⟨rfl, rfl, rfl, rfl, rfl, rfl⟩

/-! ### The invariant -/

/-- The invariant speaks of the re-packer's registers only. -/
theorem SameRepacker.inv {s t : State} (h : SameRepacker s t) (hs : s.Inv) : t.Inv := by
  simpa only [State.Inv, h.acc, h.cnt, h.drop, h.ended] using hs

/-- The invariant of an open message with nothing dropped: CNT and ACC within their bounds. -/
theorem inv_of_open {s : State} (hended : s.ended = false) (hdrop : s.drop = 0#4)
    (hcnt : s.cnt.toNat ≤ 7) (hacc : s.acc.toNat < 2 ^ s.cnt.toNat) : s.Inv :=
  ⟨hcnt, hacc, by simp [hdrop], by simp [hended], fun _ => hdrop⟩

/-- The pending bits with a symbol appended are CNT + 5 bits. -/
theorem appended_lt {s : State} (hs : s.Inv) (sym : Symbol) :
    s.acc.toNat * 32 + sym.toNat < 2 ^ (s.cnt.toNat + 5) := by
  obtain ⟨-, hacc, -⟩ := hs
  have hsym : sym.toNat < 32 := sym.isLt
  rw [pow_add]
  omega

/-- An open message whose ACC and CNT were written with `n` bits of value `v`. -/
theorem inv_of_written {s : State} {n v : Nat} (hended : s.ended = false) (hdrop : s.drop = 0#4)
    (hcnt : s.cnt = BitVec.ofNat 4 n) (hacc : s.acc = BitVec.ofNat 12 v) (hn : n ≤ 7)
    (hv : v < 2 ^ n) : s.Inv := by
  have hcntNat : s.cnt.toNat = n := by
    rw [hcnt, BitVec.toNat_ofNat, Nat.mod_eq_of_lt (by omega)]
  refine inv_of_open hended hdrop (by omega) ?_
  rw [hcntNat, hacc, BitVec.toNat_ofNat]
  exact (Nat.mod_le _ _).trans_lt hv

/-- ACCEPT keeps CNT - 3 bits after emitting a byte, or all CNT + 5 when they are no more than 7. -/
theorem accept_inv {s : State} (hs : s.Inv) (hopen : s.ended = false) (sym : Symbol) :
    (accept sym s).Inv := by
  have happ := appended_lt hs sym
  obtain ⟨hcnt, -, -, -, hdrop⟩ := hs
  by_cases h : 3 ≤ s.cnt.toNat
  · rw [accept_emits sym s h]
    exact inv_of_written hopen (hdrop hopen) rfl rfl (by omega) (Nat.mod_lt _ (by positivity))
  · rw [accept_holds sym s (by omega)]
    exact inv_of_written hopen (hdrop hopen) rfl rfl (by omega) happ

/-- END moves the pending count to DROP, or does nothing to an ended message. -/
theorem endMessage_inv {s : State} (hs : s.Inv) : (endMessage s).Inv := by
  cases hended : s.ended with
  | true => rwa [endMessage_again s hended]
  | false =>
    rw [endMessage_open s hended]
    obtain ⟨hcnt, -⟩ := hs
    exact ⟨by simp, by simp, hcnt, by simp, by simp⟩

/-- Every command keeps the invariant. -/
theorem execEffect_inv {i : Instr} {s t : State} (heff : ExecEffect s i t) (hs : s.Inv) : t.Inv := by
  cases heff with
  | clr => exact inv_of_open rfl rfl (by simp) (by simp)
  | pushsOpen sym hopen => exact accept_inv hs hopen sym
  | pushcOpen chr sym hopen => exact accept_inv hs hopen sym
  | endOk | endLen => exact endMessage_inv hs
  | mapa ang => exact (point_sameRepacker ang s).inv hs
  | mapsInRange slot frm => exact (point_sameRepacker _ s).inv hs
  | _ => exact hs

/-- Settles O52: the reset message is open and empty. -/
theorem resetMeetsInvariant : Obligations.ResetMeetsInvariant :=
  inv_of_open rfl rfl (by decide) (by decide)

/-- Settles O53, by the cases of the host's next action. -/
theorem stepKeepsInvariant : Obligations.StepKeepsInvariant := by
  intro s t hs hstep
  match hpending : s.pending with
  | [] =>
    obtain rfl : s = t := by simpa [step_waits s hpending] using hstep
    exact hs
  | .reset :: rest =>
    obtain rfl : takeReset { s with pending := rest } = t := by
      simpa [step_reset s rest hpending] using hstep
    exact inv_of_open rfl rfl (by simp) (by simp)
  | .command w :: rest =>
    have htaken : State.Inv { s with pending := rest } := hs
    rcases step_effect hpending hstep with ⟨_, -, rfl⟩ | ⟨i, -, heff⟩
    · exact htaken
    · exact execEffect_inv heff htaken

/-! ### What a command answers, case by case -/

theorem exec_pushs_ended {s : State} (sym : Symbol) (h : s.ended = true) :
    exec (.pushs sym) s = .next ({ s with err := s.err ||| 0b010000#6 }.reply .seq 0#32) := by
  simp [exec, execPushs, h, fail_eq_reply]

theorem exec_pushs_open {s : State} (sym : Symbol) (h : s.ended = false) :
    exec (.pushs sym) s = .next (accept sym s) := by
  simp [exec, execPushs, h]

theorem exec_pushc_ended {s : State} (chr : Byte) (h : s.ended = true) :
    exec (.pushc chr) s = .next ({ s with err := s.err ||| 0b010000#6 }.reply .seq 0#32) := by
  simp [exec, execPushc, h, fail_eq_reply]

theorem exec_pushc_absent {s : State} {chr : Byte} (h : s.ended = false) (ha : alpha chr = none) :
    exec (.pushc chr) s =
      .next ({ s with incnt := s.incnt + 1#32, err := s.err ||| 0b000010#6 }.reply .char 0#32) := by
  simp [exec, execPushc, h, ha, fail_eq_reply, countItem]

theorem exec_pushc_open {s : State} {chr : Byte} {sym : Symbol} (h : s.ended = false)
    (ha : alpha chr = some sym) : exec (.pushc chr) s = .next (accept sym s) := by
  simp [exec, execPushc, h, ha]

theorem exec_maps_inRange {s : State} (slot : BitVec 3) {frm : BitVec 24}
    (h : frameInRange frm s.nframes = true) :
    exec (.maps slot frm) s = .next (point (slotAngle slot frm s.nframes) s) := by
  simp [exec, execMaps, h]

theorem exec_maps_refused {s : State} (slot : BitVec 3) {frm : BitVec 24}
    (h : frameInRange frm s.nframes = false) :
    exec (.maps slot frm) s = .next ({ s with err := s.err ||| 0b001000#6 }.reply .arg 0#32) := by
  simp [exec, execMaps, h, fail_eq_reply]

theorem exec_rdreg_reads {s : State} {idx : BitVec 4} {v : Word} (h : regval idx s = some v) :
    exec (.rdreg idx) s = .next (s.reply .ok v) := by
  simp [exec, execRdreg, h, respond_ok_eq]

theorem exec_rdreg_reserved {s : State} {idx : BitVec 4} (h : regval idx s = none) :
    exec (.rdreg idx) s = .next ({ s with err := s.err ||| 0b001000#6 }.reply .arg 0#32) := by
  simp [exec, execRdreg, h, fail_eq_reply]

/-! ### STATUS and PEND, bit by bit -/

/-- STATUS by R28: the sticky bits, ENDED at bit 8, zeros. -/
theorem statusWord_getLsbD (s : State) (k : Nat) :
    (statusWord s).getLsbD k =
      if k < 6 then s.err.getLsbD k else if k = 8 then s.ended else false := by
  unfold statusWord
  simp only [BitVec.getLsbD_append, BitVec.getLsbD_zero, BitVec.getLsbD_ofBool]
  grind

/-- PEND by R181: ACC from bit 0, CNT from bit 16, DROP from bit 24, zeros. -/
theorem pendWord_getLsbD (s : State) (k : Nat) :
    (pendWord s).getLsbD k =
      if k < 12 then s.acc.getLsbD k
      else if k < 16 then false
      else if k < 20 then s.cnt.getLsbD (k - 16)
      else if k < 24 then false
      else s.drop.getLsbD (k - 24) := by
  unfold pendWord
  simp only [BitVec.getLsbD_append, BitVec.getLsbD_zero]
  grind

/-- Settles O20: both reads succeed, and the reserved bits are the zeros of the two words; bits 19 and 27
of PEND are the top bits of CNT and DROP, which the invariant keeps below 8. -/
theorem reservedBitsReadZero : Obligations.ReservedBitsReadZero := by
  intro s
  refine ⟨⟨statusWord s, exec_rdreg_reads rfl, fun k hk => ?_⟩,
    ⟨pendWord s, exec_rdreg_reads rfl, fun k hk => ?_, fun hs => ?_⟩⟩
  · rw [statusWord_getLsbD, if_neg (by omega), if_neg (by omega)]
  · rcases hk with hk | hk | hk
    · rw [pendWord_getLsbD, if_neg (by omega), if_pos (by omega)]
    · rw [pendWord_getLsbD, if_neg (by omega), if_neg (by omega), if_neg (by omega), if_pos (by omega)]
    · rw [pendWord_getLsbD, if_neg (by omega), if_neg (by omega), if_neg (by omega), if_neg (by omega)]
      exact BitVec.getLsbD_of_ge _ _ (by omega)
  · obtain ⟨hcnt, -, hdrop, -⟩ := hs
    have top_zero (x : BitVec 4) (hx : x.toNat ≤ 7) : x.getLsbD 3 = false :=
      Nat.testBit_lt_two_pow (show x.toNat < 2 ^ 3 by omega)
    exact ⟨by rw [pendWord_getLsbD]; exact top_zero s.cnt hcnt,
      by rw [pendWord_getLsbD]; exact top_zero s.drop hdrop⟩

/-! ### The sticky bits -/

/-- ACCEPT with any sticky bits: the same writes, the same response, the sticky bits kept. -/
theorem accept_set_err (sym : Symbol) (s : State) (e : BitVec 6) :
    accept sym { s with err := e } = { accept sym s with err := e } := by
  by_cases h : 3 ≤ s.cnt.toNat
  · rw [accept_emits sym s h, accept_emits sym { s with err := e } h]; rfl
  · rw [accept_holds sym s (by omega), accept_holds sym { s with err := e } (by simpa using h)]; rfl

theorem endMessage_set_err (s : State) (e : BitVec 6) :
    endMessage { s with err := e } = { endMessage s with err := e } := by
  by_cases h : s.ended = true
  · rw [endMessage_again s h, endMessage_again { s with err := e } h]
  · have hopen : s.ended = false := by simpa using h
    rw [endMessage_open s hopen, endMessage_open { s with err := e } hopen]

/-- Only STATUS shows the sticky bits. -/
theorem regval_set_err {idx : BitVec 4} (h : idx ≠ 0#4) (s : State) (e : BitVec 6) :
    regval idx { s with err := e } = regval idx s := by
  unfold regval
  split
  case h_1 h0 => exact absurd (BitVec.eq_of_toNat_eq h0) h
  all_goals rfl

/-- At any sticky bits the command leaves the registers of one state `u`, with one status; the response's
data may depend on them only for the commands that return STATUS. -/
def StickyBlind (i : Instr) (s : State) : Prop :=
  ∃ (u : State) (st : Status) (err' : BitVec 6 → BitVec 6) (d : BitVec 6 → Word),
    u.responses = s.responses ∧
    (∀ e, exec i { s with err := e } = .next ({ u with err := err' e }.reply st (d e))) ∧
    (i ≠ .rdreg 0#4 → (∀ mask, i ≠ .eclr mask) → ∀ e e', d e = d e')

/-- A command whose whole response is the same at any sticky bits. -/
theorem StickyBlind.of_fixed_response {i : Instr} {s : State} (u : State) (hu : u.responses = s.responses)
    {st : Status} {d : Word} {err' : BitVec 6 → BitVec 6}
    (h : ∀ e, exec i { s with err := e } = .next ({ u with err := err' e }.reply st d)) :
    StickyBlind i s :=
  ⟨u, st, err', fun _ => d, hu, h, fun _ _ _ _ => rfl⟩

theorem StickyBlind.of_write {i : Instr} {s : State} (u : State) (hu : u.responses = s.responses)
    (h : ∀ e, exec i { s with err := e } = .next (respond .ok 0#32 { u with err := e })) :
    StickyBlind i s :=
  .of_fixed_response u hu (err' := id) fun e => (h e).trans (congrArg _ (respond_ok_eq _ _))

theorem StickyBlind.of_accept {i : Instr} {s : State} {sym : Symbol}
    (h : ∀ e, exec i { s with err := e } = .next (accept sym { s with err := e })) :
    StickyBlind i s := by
  obtain ⟨acc, cnt, bytecnt, d, hw⟩ := accept_writes sym s
  refine .of_fixed_response { s with incnt := s.incnt + 1#32, acc := acc, cnt := cnt, bytecnt := bytecnt }
    rfl (err' := id) (d := d) (st := .ok) fun e => ?_
  rw [h, accept_set_err, hw]
  rfl

theorem StickyBlind.of_point {i : Instr} {s : State} {a : Angle}
    (h : ∀ e, exec i { s with err := e } = .next (point a { s with err := e })) :
    StickyBlind i s :=
  .of_fixed_response { s with lastang := a } rfl
    (st := pointStatus (coordinate s.cx (cosq a) s.r) (coordinate s.cy (sinq a) s.r))
    (d := pointData (coordinate s.cx (cosq a) s.r) (coordinate s.cy (sinq a) s.r))
    (err' := (· ||| stickyBits (pointStatus (coordinate s.cx (cosq a) s.r) (coordinate s.cy (sinq a) s.r))))
    h

/-- No command reads the sticky bits (R37). -/
theorem exec_stickyBlind (i : Instr) (s : State) : StickyBlind i s := by
  cases i with
  | pushs sym =>
    cases h : s.ended with
    | true => exact .of_fixed_response s rfl fun e => exec_pushs_ended sym h
    | false => exact .of_accept fun e => exec_pushs_open sym h
  | pushc chr =>
    cases h : s.ended with
    | true => exact .of_fixed_response s rfl fun e => exec_pushc_ended chr h
    | false =>
      cases ha : alpha chr with
      | none => exact .of_fixed_response (countItem s) rfl fun e => exec_pushc_absent h ha
      | some sym => exact .of_accept fun e => exec_pushc_open h ha
  | maps slot frm =>
    cases h : frameInRange frm s.nframes with
    | true => exact .of_point (a := slotAngle slot frm s.nframes) fun e => exec_maps_inRange slot h
    | false => exact .of_fixed_response s rfl fun e => exec_maps_refused slot h
  | rdreg idx =>
    by_cases h0 : idx = 0#4
    · subst h0
      exact ⟨s, .ok, id, fun e => statusWord { s with err := e }, rfl, fun e => exec_rdreg_reads rfl,
        fun h => absurd rfl h⟩
    · have hsame (e : BitVec 6) := regval_set_err h0 s e
      cases hv : regval idx s with
      | none =>
        simp only [hv] at hsame
        exact .of_fixed_response s rfl fun e => exec_rdreg_reserved (hsame e)
      | some v =>
        simp only [hv] at hsame
        exact .of_fixed_response s rfl (err' := id) fun e => exec_rdreg_reads (hsame e)
  | eclr mask =>
    exact ⟨s, .ok, (clearSticky · mask), fun e => statusWord { s with err := e }, rfl,
      fun e => congrArg _ (respond_ok_eq _ _), fun _ h => absurd rfl (h mask)⟩
  | mapa ang => exact .of_point fun _ => rfl
  | endMsg =>
    refine .of_fixed_response (endMessage s) (endMessage_responses s)
      (err' := (· ||| stickyBits (lengthStatus s.incnt)))
      (st := lengthStatus s.incnt) (d := s.bytecnt) fun e => ?_
    show Host.Outcome.next (respond _ _ (endMessage { s with err := e })) = _
    rw [endMessage_set_err]
    rfl
  | clr =>
    exact .of_fixed_response (clearMessage s) rfl (err' := fun _ => 0#6)
      fun _ => congrArg _ (respond_ok_eq _ _)
  | setcx val => exact .of_write { s with cx := val } rfl fun _ => rfl
  | setcy val => exact .of_write { s with cy := val } rfl fun _ => rfl
  | setr rad => exact .of_write { s with r := rad } rfl fun _ => rfl
  | setn nf => exact .of_write { s with nframes := nf } rfl fun _ => rfl
  | nop => exact .of_write s rfl fun _ => rfl

/-- Settles O47: both runs are one answer of the command, taken at the two contents of the sticky bits. -/
theorem stickyBitsSteerNothing : Obligations.StickyBitsSteerNothing := by
  intro i s e
  obtain ⟨u, st, err', d, hu, hexec, hdata⟩ := exec_stickyBlind i s
  refine ⟨_, _, ⟨st, d s.err⟩, ⟨st, d e⟩, hexec s.err, hexec e, ?_, ?_, rfl, rfl, ?_⟩
  · simp [hu]
  · simp [hu]
  · intro hread hclear
    rw [hdata hread hclear e s.err]

/-! ### The constant tables -/

/-- Settles O27, over the 256 codes. -/
theorem alphabetTable : Obligations.AlphabetTable := by
  unfold Obligations.AlphabetTable
  decide

/-- Settles O34, over the eight slots. -/
theorem baseAngleTable : Obligations.BaseAngleTable := by
  unfold Obligations.BaseAngleTable
  decide

/-! ### Who writes which register -/

/-- ID reads as its constant in every state (R34). -/
theorem exec_rdreg_id (s : State) : exec (.rdreg 8#4) s = .next (s.reply .ok 0x52503538#32) :=
  exec_rdreg_reads rfl

/-- Settles O48. Each effect is an update of named fields, so a register outside them is the old one; the
fields ACCEPT and POINT write are those of `accept_writes` and `point_cases`. -/
theorem writersOfEachRegister : Obligations.WritersOfEachRegister := by
  constructor
  · intro i s t hexec
    cases exec_effect hexec with
    | pushsOpen sym | pushcOpen _ sym =>
      obtain ⟨acc, cnt, bytecnt, d, haccept⟩ := accept_writes sym s
      simp [haccept, Instr.opcode, exec_rdreg_id]
    | mapa ang =>
      rcases point_cases ang s with ⟨-, hpoint⟩ | ⟨-, hpoint⟩ <;>
        simp [hpoint, Instr.opcode, exec_rdreg_id]
    | mapsInRange slot frm =>
      rcases point_cases (slotAngle slot frm s.nframes) s with ⟨-, hpoint⟩ | ⟨-, hpoint⟩ <;>
        simp [hpoint, Instr.opcode, exec_rdreg_id]
    | _ => simp [Instr.opcode, exec_rdreg_id]
  · intro s t w rest e hpending hdecode hstep
    rcases step_effect hpending hstep with ⟨_, -, rfl⟩ | ⟨i, hlegal, -⟩
    · rfl
    · rw [hdecode] at hlegal
      cases hlegal

/-! ### Runs of words -/

/-- Every word is taken from the host and answered by one response. -/
theorem step_answers {s : State} {w : Word} {rest : List HostAction}
    (hpending : s.pending = .command w :: rest) :
    ∃ u r, step s = .next u ∧ u.pending = rest ∧ u.responses = s.responses ++ [r] := by
  rw [step_command s w rest hpending]
  cases hdecode : decode w with
  | error e => exact ⟨_, ⟨.enc, 0#32⟩, runWord_illegal w e _ hdecode, rfl, rfl⟩
  | ok i =>
    obtain ⟨st, d, u, hexec, hp, hr⟩ := exec_responds i { s with pending := rest }
    exact ⟨_, ⟨st, d⟩, (runWord_legal w i _ hdecode).trans hexec, hp, congrArg (· ++ [_]) hr⟩

/-- From `s` the host's next actions are the words `ws`; they are answered by `rs` and leave `t`. -/
inductive WordsRun : State → List Word → List Response → State → Prop where
  | nil (s : State) : WordsRun s [] [] s
  | cons {s u t : State} {w : Word} {ws : List Word} {r : Response} {rs : List Response}
      {rest : List HostAction} (hpending : s.pending = .command w :: rest) (hstep : step s = .next u)
      (hresponse : u.responses = s.responses ++ [r]) (hrun : WordsRun u ws rs t) :
      WordsRun s (w :: ws) (r :: rs) t

theorem WordsRun.responses_eq {s t : State} {ws : List Word} {rs : List Response}
    (h : WordsRun s ws rs t) : t.responses = s.responses ++ rs := by
  induction h with
  | nil s => simp
  | cons _ _ hresponse _ ih => rw [ih, hresponse, List.append_assoc, List.singleton_append]

theorem run_succ {s u : State} (hstep : step s = .next u) (n : Nat) :
    Host.Core.run core (n + 1) s = Host.Core.run core n u := by
  have hcore : core.step s = .next u := hstep
  simp only [Host.Core.run, hcore]

/-- The machine's run over words at the head of the host's actions is a `WordsRun`, and takes them all. -/
theorem run_wordsRun (ws : List Word) (rest : List HostAction) (s : State)
    (hpending : s.pending = ws.map HostAction.command ++ rest) :
    ∃ t rs, Host.Core.run core ws.length s = .next t ∧ t.pending = rest ∧ WordsRun s ws rs t := by
  induction ws generalizing s with
  | nil => exact ⟨s, [], rfl, hpending, .nil s⟩
  | cons w ws ih =>
    obtain ⟨u, r, hstep, hu, hresponse⟩ := step_answers hpending
    obtain ⟨t, rs, hrun, ht, hwords⟩ := ih u hu
    exact ⟨t, r :: rs, (run_succ hstep ws.length).trans hrun, ht, .cons hpending hstep hresponse hwords⟩

/-! ### Open messages -/

/-- What a word other than CLR and END does to an open message: it appends a symbol, it is a refused
character, or it leaves the re-packer alone. -/
inductive OpenEffect (s : State) (w : Word) (u : State) : Prop where
  | accepted (sym : Symbol) (rest : List HostAction)
      (hword : decode w = .ok (.pushs sym) ∨ ∃ chr, decode w = .ok (.pushc chr) ∧ alpha chr = some sym)
      (hu : u = accept sym { s with pending := rest })
  | refused (chr : Byte) (rest : List HostAction) (hword : decode w = .ok (.pushc chr))
      (habsent : alpha chr = none)
      (hu : u = { s with
        pending := rest, incnt := s.incnt + 1#32, err := s.err ||| 0b000010#6 }.reply .char 0#32)
  | other (hpushs : ∀ sym, decode w ≠ .ok (.pushs sym)) (hpushc : ∀ chr, decode w ≠ .ok (.pushc chr))
      (hsame : SameRepacker s u)

/-- Taking the host's action touches no register. -/
theorem SameRepacker.of_pending {s t : State} {rest : List HostAction}
    (h : SameRepacker { s with pending := rest } t) : SameRepacker s t :=
  ⟨h.acc, h.cnt, h.incnt, h.bytecnt, h.ended, h.drop⟩

theorem step_openEffect {s u : State} {w : Word} {rest : List HostAction}
    (hopen : s.ended = false) (hstay : staysInMessage w) (hpending : s.pending = .command w :: rest)
    (hstep : step s = .next u) : OpenEffect s w u := by
  rcases step_effect hpending hstep with ⟨e, hdecode, rfl⟩ | ⟨i, hdecode, heff⟩
  · exact .other (by simp [hdecode]) (by simp [hdecode]) ⟨rfl, rfl, rfl, rfl, rfl, rfl⟩
  · cases hrepacker : i.opcode.isRepacker with
    | false =>
      have hsame : SameRepacker s u := (execEffect_sameRepacker heff hrepacker).of_pending
      refine .other (fun sym hw => ?_) (fun chr hw => ?_) hsame
      · obtain rfl : i = .pushs sym := by simpa [hdecode] using hw
        cases hrepacker
      · obtain rfl : i = .pushc chr := by simpa [hdecode] using hw
        cases hrepacker
    | true =>
      obtain ⟨hclr, hend⟩ := hstay
      cases heff with
      | clr => exact absurd hdecode hclr
      | endOk | endLen => exact absurd hdecode hend
      | pushsEnded _ hended | pushcEnded _ hended => exact absurd (hopen.symm.trans hended) (by decide)
      | pushsOpen sym => exact .accepted sym rest (.inl hdecode) rfl
      | pushcOpen chr sym _ ha => exact .accepted sym rest (.inr ⟨chr, hdecode, ha⟩) rfl
      | pushcAbsent chr _ ha => exact .refused chr rest hdecode ha rfl
      | _ => cases hrepacker

/-- The message stays open. -/
theorem OpenEffect.stays_open {s u : State} {w : Word} (h : OpenEffect s w u) (hopen : s.ended = false) :
    u.ended = false := by
  cases h with
  | accepted sym rest _ hu =>
    obtain ⟨acc, cnt, bytecnt, d, haccept⟩ := accept_writes sym { s with pending := rest }
    rw [hu, haccept]
    exact hopen
  | refused _ _ _ _ hu => rw [hu]; exact hopen
  | other _ _ hsame => exact hsame.ended.trans hopen

/-! ### The counters -/

/-- A legal push, which counts toward the input length whatever it is answered (R24). -/
def isItem (w : Word) : Bool :=
  match decode w with
  | .ok (.pushs _) | .ok (.pushc _) => true
  | _ => false

theorem isItem_iff (w : Word) :
    isItem w = true ↔ (∃ sym, decode w = .ok (.pushs sym)) ∨ ∃ chr, decode w = .ok (.pushc chr) := by
  unfold isItem
  split <;> simp_all

/-- A push carries a byte exactly if it responds OK with data bit 8. -/
theorem wordBytes_length_of_item {w : Word} (h : isItem w = true) (r : Response) :
    (wordBytes w r).length = if r.status = .ok ∧ r.data.getLsbD 8 = true then 1 else 0 := by
  have hbytes : wordBytes w r =
      if r.status = .ok ∧ r.data.getLsbD 8 = true then [r.data.toNat % 256] else [] := by
    rcases (isItem_iff w).1 h with ⟨sym, hw⟩ | ⟨chr, hw⟩ <;> simp [wordBytes, hw]
  rw [hbytes]
  split <;> rfl

theorem wordBytes_of_not_item {w : Word} (h : isItem w = false) (r : Response) : wordBytes w r = [] := by
  unfold isItem at h
  unfold wordBytes
  split at h <;> simp_all

theorem messageBytes_cons (w : Word) (ws : List Word) (r : Response) (rs : List Response) :
    messageBytes (w :: ws) (r :: rs) = wordBytes w r ++ messageBytes ws rs := rfl

/-- Data bit 8 marks an emitted byte. -/
theorem emitted_bit8 {b : Nat} (hb : b < 256) : (BitVec.ofNat 32 (0x100 + b)).getLsbD 8 = true := by
  have hbit : (0x100 + b).testBit 8 = !b.testBit 8 := Nat.testBit_two_pow_add_eq b 8
  rw [BitVec.getLsbD_ofNat, hbit, Nat.testBit_lt_two_pow hb]
  rfl

/-- The first 8 of CNT + 5 bits are a byte. -/
theorem firstBits_lt {s : State} (hs : s.Inv) (sym : Symbol) (h : 3 ≤ s.cnt.toNat) :
    (s.acc.toNat * 32 + sym.toNat) / 2 ^ (s.cnt.toNat - 3) < 256 := by
  have hsplit : 2 ^ (s.cnt.toNat + 5) = 2 ^ (s.cnt.toNat - 3) * 256 := by
    rw [show s.cnt.toNat + 5 = s.cnt.toNat - 3 + 8 by omega, pow_add]
    rfl
  exact Nat.div_lt_of_lt_mul (hsplit ▸ appended_lt hs sym)

/-- ACCEPT counts the item, responds OK, and counts a byte exactly if its response carries one. -/
theorem accept_counts {s : State} (hs : s.Inv) (sym : Symbol) :
    ∃ d, (accept sym s).responses = s.responses ++ [⟨.ok, d⟩] ∧
      (accept sym s).incnt = s.incnt + 1#32 ∧
      (accept sym s).bytecnt = s.bytecnt + BitVec.ofNat 32 (if d.getLsbD 8 = true then 1 else 0) := by
  by_cases h : 3 ≤ s.cnt.toNat
  · have hbit := emitted_bit8 (firstBits_lt hs sym h)
    refine ⟨_, congrArg State.responses (accept_emits sym s h), ?_, ?_⟩
    · rw [accept_emits sym s h]; rfl
    · rw [accept_emits sym s h, if_pos hbit]; rfl
  · have hholds := accept_holds sym s (by omega)
    exact ⟨0#32, by rw [hholds]; rfl, by rw [hholds]; rfl, by rw [hholds]; simp⟩

/-- Over one word of an open message the counters grow by its items and its bytes. -/
theorem OpenEffect.counts {s u : State} {w : Word} {r : Response} (h : OpenEffect s w u) (hs : s.Inv)
    (hresponse : u.responses = s.responses ++ [r]) :
    u.incnt = s.incnt + BitVec.ofNat 32 ([w].filter isItem).length ∧
      u.bytecnt = s.bytecnt + BitVec.ofNat 32 (wordBytes w r).length := by
  cases h with
  | accepted sym rest hword hu =>
    have hitem : isItem w = true :=
      (isItem_iff w).2 (hword.imp (fun h => ⟨sym, h⟩) (fun ⟨chr, h, _⟩ => ⟨chr, h⟩))
    obtain ⟨d, hd, hincnt, hbytecnt⟩ := accept_counts (s := { s with pending := rest }) hs sym
    obtain rfl : r = ⟨.ok, d⟩ := by simpa [hu, hd] using hresponse.symm
    rw [wordBytes_length_of_item hitem, hu]
    simpa [hitem] using ⟨hincnt, hbytecnt⟩
  | refused chr rest hword _ hu =>
    have hitem : isItem w = true := (isItem_iff w).2 (.inr ⟨chr, hword⟩)
    obtain rfl : r = ⟨.char, 0#32⟩ := by simpa [hu] using hresponse.symm
    rw [wordBytes_length_of_item hitem, hu]
    simp [hitem]
  | other hpushs hpushc hsame =>
    have hitem : isItem w = false := by
      rw [Bool.eq_false_iff, Ne, isItem_iff]
      rintro (⟨sym, h⟩ | ⟨chr, h⟩)
      · exact hpushs sym h
      · exact hpushc chr h
    simp [wordBytes_of_not_item hitem, hitem, hsame.incnt, hsame.bytecnt]

/-- Over the words of an open message the counters grow by the items and the bytes, modulo 2^32. -/
theorem WordsRun.counts {s t : State} {ws : List Word} {rs : List Response} (h : WordsRun s ws rs t)
    (hs : s.Inv) (hopen : s.ended = false) (hstay : ∀ w ∈ ws, staysInMessage w) :
    t.incnt = s.incnt + BitVec.ofNat 32 (ws.filter isItem).length ∧
      t.bytecnt = s.bytecnt + BitVec.ofNat 32 (messageBytes ws rs).length := by
  induction h with
  | nil s => simp [messageBytes]
  | @cons s u t w ws r rs rest hpending hstep hresponse _ ih =>
    obtain ⟨hw, hws⟩ := List.forall_mem_cons.1 hstay
    have heff := step_openEffect hopen hw hpending hstep
    obtain ⟨hincnt, hbytecnt⟩ := heff.counts hs hresponse
    obtain ⟨hincnt', hbytecnt'⟩ := ih (stepKeepsInvariant s u hs hstep) (heff.stays_open hopen) hws
    constructor
    · have hitems : (w :: ws).filter isItem = [w].filter isItem ++ ws.filter isItem :=
        List.filter_append [w] ws
      rw [hincnt', hincnt, hitems, List.length_append, BitVec.ofNat_add, BitVec.add_assoc]
    · rw [hbytecnt', hbytecnt, messageBytes_cons, List.length_append, BitVec.ofNat_add,
        BitVec.add_assoc]

theorem messageStart_inv {s : State} (h : messageStart s) : s.Inv := by
  obtain ⟨hacc, hcnt, -, -, hended, hdrop⟩ := h
  exact inv_of_open hended hdrop (by simp [hcnt]) (by simp [hacc])

/-- Settles O56: the counters are 0 at the start of a message and grow word by word. -/
theorem countersCountItemsAndBytes : Obligations.CountersCountItemsAndBytes := by
  intro s ws hstart hpending hstay
  obtain ⟨t, rs, hrun, -, hwords⟩ := run_wordsRun ws [] (s.issue ws) (by simp [hpending])
  have hinv : (s.issue ws).Inv := messageStart_inv hstart
  obtain ⟨-, -, hincnt0, hbytecnt0, hopen, -⟩ := hstart
  obtain ⟨hincnt, hbytecnt⟩ := hwords.counts hinv hopen hstay
  refine ⟨t, rs, hrun, hwords.responses_eq, ?_, ?_⟩
  · rw [hincnt, issue_incnt, hincnt0, BitVec.zero_add, BitVec.toNat_ofNat]
    rfl
  · rw [hbytecnt, issue_bytecnt, hbytecnt0, BitVec.zero_add, BitVec.toNat_ofNat]

end Sys2Proof.Proofs

namespace Sys2Proof.Proofs
open Sys2Proof.Machine

/-! ### What each unit reads and writes -/

/-- The state `m` with the re-packer's registers of `s` (R77). -/
def withRepacker (m s : State) : State :=
  { m with
    acc := s.acc, cnt := s.cnt, incnt := s.incnt, bytecnt := s.bytecnt
    ended := s.ended, drop := s.drop }

/-- The state `m` with the mapper's registers of `s` (R77). -/
def withMapper (m s : State) : State :=
  { m with cx := s.cx, cy := s.cy, r := s.r, nframes := s.nframes, lastang := s.lastang }

/-- How a command of one unit answers: the response, the state that holds the unit's registers as it leaves
them, and what becomes of the sticky bits. -/
structure UnitAnswer where
  regs : State
  status : Status
  data : Word
  err : BitVec 6 → BitVec 6

/-- The state after the answer given at the state `m`, where `put` gives `m` the unit's registers. -/
def UnitAnswer.after (A : UnitAnswer) (put : State → State → State) (m : State) : State :=
  { put m A.regs with err := A.err m.err }.reply A.status A.data

/-- With the unit's registers of `s`, the command has one answer, whatever the state `m` holds elsewhere. -/
def AnswersWithin (put : State → State → State) (i : Instr) (s : State) : Prop :=
  ∃ A : UnitAnswer, ∀ m, exec i (put m s) = .next (A.after put m)

/-- ACCEPT stays within the re-packer. -/
theorem accept_withRepacker (sym : Symbol) (s : State) :
    ∃ d, ∀ m, accept sym (withRepacker m s) = (withRepacker m (accept sym s)).reply .ok d := by
  by_cases h : 3 ≤ s.cnt.toNat
  · refine ⟨BitVec.ofNat 32 (0x100 + (s.acc.toNat * 32 + sym.toNat) / 2 ^ (s.cnt.toNat - 3)),
      fun m => ?_⟩
    rw [accept_emits sym s h, accept_emits sym (withRepacker m s) h]; rfl
  · refine ⟨0#32, fun m => ?_⟩
    rw [accept_holds sym s (by omega), accept_holds sym (withRepacker m s) (not_le.1 h)]; rfl

/-- END's effect stays within the re-packer. -/
theorem endMessage_withRepacker (m s : State) :
    endMessage (withRepacker m s) = withRepacker m (endMessage s) := by
  cases h : s.ended with
  | true => rw [endMessage_again s h, endMessage_again (withRepacker m s) h]
  | false => rw [endMessage_open s h, endMessage_open (withRepacker m s) h]; rfl

theorem AnswersWithin.of_accept {i : Instr} {s : State} {sym : Symbol}
    (h : ∀ m, exec i (withRepacker m s) = .next (accept sym (withRepacker m s))) :
    AnswersWithin withRepacker i s := by
  obtain ⟨d, haccept⟩ := accept_withRepacker sym s
  exact ⟨⟨accept sym s, .ok, d, id⟩, fun m => (h m).trans (congrArg _ (haccept m))⟩

/-- A re-packer command reads and writes the re-packer's registers only (R77). -/
theorem exec_withinRepacker {i : Instr} (hi : i.opcode.isRepacker = true) (s : State) :
    AnswersWithin withRepacker i s := by
  cases i with
  | clr => exact ⟨⟨clearMessage s, .ok, 0#32, fun _ => 0#6⟩, fun _ => congrArg _ (respond_ok_eq _ _)⟩
  | pushs sym =>
    cases he : s.ended with
    | true => exact ⟨⟨s, .seq, 0#32, (· ||| 0b010000#6)⟩, fun _ => exec_pushs_ended sym he⟩
    | false => exact .of_accept fun _ => exec_pushs_open sym he
  | pushc chr =>
    cases he : s.ended with
    | true => exact ⟨⟨s, .seq, 0#32, (· ||| 0b010000#6)⟩, fun _ => exec_pushc_ended chr he⟩
    | false =>
      cases ha : alpha chr with
      | none =>
        exact ⟨⟨countItem s, .char, 0#32, (· ||| 0b000010#6)⟩, fun _ => exec_pushc_absent he ha⟩
      | some sym => exact .of_accept fun _ => exec_pushc_open he ha
  | endMsg =>
    exact ⟨⟨endMessage s, lengthStatus s.incnt, s.bytecnt, (· ||| stickyBits (lengthStatus s.incnt))⟩,
      fun m => congrArg (fun t => Host.Outcome.next (respond (lengthStatus s.incnt) s.bytecnt t))
        (endMessage_withRepacker m s)⟩
  | _ => cases hi

theorem AnswersWithin.of_point {i : Instr} {s : State} {a : Angle}
    (h : ∀ m, exec i (withMapper m s) = .next (point a (withMapper m s))) :
    AnswersWithin withMapper i s :=
  let xs := coordinate s.cx (cosq a) s.r
  let ys := coordinate s.cy (sinq a) s.r
  ⟨⟨{ s with lastang := a }, pointStatus xs ys, pointData xs ys,
    (· ||| stickyBits (pointStatus xs ys))⟩, h⟩

theorem AnswersWithin.of_write {i : Instr} {s : State} (u : State)
    (h : ∀ m, exec i (withMapper m s) = .next (respond .ok 0#32 (withMapper m u))) :
    AnswersWithin withMapper i s :=
  ⟨⟨u, .ok, 0#32, id⟩, fun m => (h m).trans (congrArg _ (respond_ok_eq _ _))⟩

/-- A mapper command reads and writes the mapper's registers only (R77). -/
theorem exec_withinMapper {i : Instr} (hi : i.opcode.isMapper = true) (s : State) :
    AnswersWithin withMapper i s := by
  cases i with
  | setcx val => exact .of_write { s with cx := val } fun _ => rfl
  | setcy val => exact .of_write { s with cy := val } fun _ => rfl
  | setr rad => exact .of_write { s with r := rad } fun _ => rfl
  | setn nf => exact .of_write { s with nframes := nf } fun _ => rfl
  | mapa ang => exact .of_point fun _ => rfl
  | maps slot frm =>
    cases hf : frameInRange frm s.nframes with
    | true =>
      exact .of_point (a := slotAngle slot frm s.nframes) fun m =>
        exec_maps_inRange (s := withMapper m s) slot hf
    | false =>
      exact ⟨⟨s, .arg, 0#32, (· ||| 0b001000#6)⟩, fun m =>
        exec_maps_refused (s := withMapper m s) slot hf⟩
  | _ => cases hi

/-- Settles O49: a unit's command answers within its unit, whatever the other unit holds. -/
theorem unitsDoNotMeet : Obligations.UnitsDoNotMeet := by
  constructor
  · intro i s hi
    obtain ⟨A, hexec⟩ := exec_withinRepacker hi s
    exact ⟨_, hexec s, rfl, rfl, rfl, rfl, rfl, fun cx cy r nframes lastang =>
      hexec { s with cx := cx, cy := cy, r := r, nframes := nframes, lastang := lastang }⟩
  · intro i s hi
    obtain ⟨A, hexec⟩ := exec_withinMapper hi s
    exact ⟨_, hexec s, rfl, rfl, rfl, rfl, rfl, rfl, fun acc cnt incnt bytecnt ended drop =>
      hexec { s with
        acc := acc, cnt := cnt, incnt := incnt, bytecnt := bytecnt, ended := ended, drop := drop }⟩

/-- Settles O50: each command answers from its own unit's registers, which the other command keeps. -/
theorem unitsCommute : Obligations.UnitsCommute := by
  intro i j s hi hj
  obtain ⟨A, hrepacker⟩ := exec_withinRepacker hi s
  obtain ⟨B, hmapper⟩ := exec_withinMapper hj s
  let s₁ := A.after withRepacker s
  let s₂ := B.after withMapper s
  exact ⟨s₁, s₂, B.after withMapper s₁, A.after withRepacker s₂, ⟨A.status, A.data⟩, ⟨B.status, B.data⟩,
    hrepacker s, hmapper s₁, hmapper s, hrepacker s₂,
    List.append_assoc _ _ _, List.append_assoc _ _ _, rfl⟩

/-! ### Commands that may be repeated -/

/-- The second of two equal answers sets no new sticky bit. -/
theorem respond_respond (st : Status) (d : Word) (s : State) :
    respond st d (respond st d s) = (respond st d s).reply st d := by
  simp [respond, State.reply, BitVec.or_assoc]

/-- The command leaves `t` with the response `r`, and again `r` with no other change to `t`. -/
def Repeats (i : Instr) (s : State) : Prop :=
  ∃ (t : State) (r : Response), exec i s = .next t ∧ t.responses = s.responses ++ [r] ∧
    exec i t = .next (t.reply r.status r.data)

theorem Repeats.of_respond {i : Instr} {s u : State} {st : Status} {d : Word}
    (hu : u.responses = s.responses) (hfirst : exec i s = .next (respond st d u))
    (hagain : exec i (respond st d u) = .next (respond st d (respond st d u))) : Repeats i s :=
  ⟨_, ⟨st, d⟩, hfirst, congrArg (· ++ _) hu, hagain.trans (congrArg _ (respond_respond st d u))⟩

theorem Repeats.of_point {i : Instr} {s : State} {a : Angle}
    (hfirst : exec i s = .next (point a s)) (hagain : exec i (point a s) = .next (point a (point a s))) :
    Repeats i s :=
  .of_respond (u := { s with lastang := a }) rfl hfirst hagain

/-- The commands of R71 repeat: what they read, their first execution leaves as it was or as it will be. -/
theorem exec_repeats {i : Instr} (s : State)
    (hi : i.opcode ∈ [Opcode.nop, .rdreg, .setcx, .setcy, .setr, .setn, .mapa, .maps, .endMsg]) :
    Repeats i s := by
  cases i with
  | nop => exact .of_respond (u := s) rfl rfl rfl
  | setcx val => exact .of_respond (u := { s with cx := val }) rfl rfl rfl
  | setcy val => exact .of_respond (u := { s with cy := val }) rfl rfl rfl
  | setr rad => exact .of_respond (u := { s with r := rad }) rfl rfl rfl
  | setn nf => exact .of_respond (u := { s with nframes := nf }) rfl rfl rfl
  | mapa ang => exact .of_point rfl rfl
  | maps slot frm =>
    cases hf : frameInRange frm s.nframes with
    | true => exact .of_point (exec_maps_inRange slot hf) (exec_maps_inRange slot hf)
    | false =>
      exact .of_respond (st := .arg) (d := 0#32) (u := s) rfl (exec_maps_refused slot hf)
        (exec_maps_refused slot hf)
  | rdreg idx =>
    cases hv : regval idx s with
    | some v => exact ⟨s.reply .ok v, ⟨.ok, v⟩, exec_rdreg_reads hv, rfl, exec_rdreg_reads hv⟩
    | none =>
      have hidx : idx ≠ 0#4 := by rintro rfl; cases hv
      exact .of_respond (st := .arg) (d := 0#32) (u := s) rfl (exec_rdreg_reserved hv)
        (exec_rdreg_reserved ((regval_set_err hidx s _).trans hv))
  | endMsg =>
    refine .of_respond (endMessage_responses s) rfl ?_
    show Host.Outcome.next (respond (lengthStatus (endMessage s).incnt) (endMessage s).bytecnt
      (endMessage (respond _ _ (endMessage s)))) = _
    rw [endMessage_again (respond _ _ _) (endMessage_ended s), endMessage_incnt, endMessage_bytecnt]
  | _ => simp [Instr.opcode] at hi

/-- Settles O51: the commands of R71 repeat, and from reset the second PUSHS of a symbol emits a byte. -/
theorem repeatedCommands : Obligations.RepeatedCommands :=
  ⟨fun _ s hi => exec_repeats s hi,
    0#5, State.reset, accept 0#5 State.reset, accept 0#5 (accept 0#5 State.reset),
    exec_pushs_open _ rfl, exec_pushs_open _ rfl, by decide⟩

/-! ### Runs -/

/-- A command appends one response and neither reads nor writes the queue of host actions (log entry 1). -/
theorem exec_ignores_queue (i : Instr) (s : State) :
    ∃ (u : State) (r : Response), u.responses = s.responses ++ [r] ∧
      ∀ p, exec i { s with pending := p } = .next { u with pending := p } := by
  have hrepacker : i.opcode.isRepacker = true → AnswersWithin withRepacker i s := fun hi =>
    exec_withinRepacker hi s
  have hmapper : i.opcode.isMapper = true → AnswersWithin withMapper i s := fun hi =>
    exec_withinMapper hi s
  cases i with
  | nop => exact ⟨respond .ok 0#32 s, ⟨.ok, 0#32⟩, rfl, fun _ => rfl⟩
  | eclr mask =>
    exact ⟨respond .ok (statusWord s) { s with err := clearSticky s.err mask }, ⟨.ok, statusWord s⟩, rfl,
      fun _ => rfl⟩
  | rdreg idx =>
    cases hv : regval idx s with
    | none =>
      exact ⟨fail .arg s, ⟨.arg, 0#32⟩, rfl, fun p =>
        exec_rdreg_reserved (s := { s with pending := p }) hv⟩
    | some v =>
      exact ⟨s.reply .ok v, ⟨.ok, v⟩, rfl, fun p =>
        exec_rdreg_reads (s := { s with pending := p }) hv⟩
  | clr | pushs | pushc | endMsg =>
    obtain ⟨A, hexec⟩ := hrepacker rfl
    exact ⟨A.after withRepacker s, ⟨A.status, A.data⟩, rfl, fun p => hexec { s with pending := p }⟩
  | setcx | setcy | setr | setn | mapa | maps =>
    obtain ⟨A, hexec⟩ := hmapper rfl
    exact ⟨A.after withMapper s, ⟨A.status, A.data⟩, rfl, fun p => hexec { s with pending := p }⟩

/-- The responses to a list of host actions: one per command, none per reset. -/
def answered (as : List HostAction) : Nat := (as.filter fun a => a != .reset).length

/-- A step takes the first action whatever the host does after it. -/
theorem step_takes (s : State) (a : HostAction) :
    ∃ (u : State) (rs : List Response), u.responses = s.responses ++ rs ∧ rs.length = answered [a] ∧
      ∀ rest, step { s with pending := a :: rest } = .next { u with pending := rest } := by
  cases a with
  | reset => exact ⟨takeReset s, [], (List.append_nil _).symm, rfl, fun rest => step_reset _ rest rfl⟩
  | command w =>
    cases hdecode : decode w with
    | error e =>
      exact ⟨fail .enc s, [⟨.enc, 0#32⟩], rfl, rfl, fun rest =>
        (step_command _ w rest rfl).trans (runWord_illegal w e _ hdecode)⟩
    | ok i =>
      obtain ⟨u, r, hresponses, hexec⟩ := exec_ignores_queue i s
      exact ⟨u, [r], hresponses, rfl, fun rest =>
        (stepRunsDecodedCommand _ w rest i rfl hdecode).trans (hexec rest)⟩

/-- A run takes the actions `as` in order and then goes on with the host's other actions. -/
theorem run_takes (as : List HostAction) (s : State) :
    ∃ (u : State) (rs : List Response), u.responses = s.responses ++ rs ∧ rs.length = answered as ∧
      ∀ rest n, Host.Core.run core (as.length + n) { s with pending := as ++ rest } =
        Host.Core.run core n { u with pending := rest } := by
  induction as generalizing s with
  | nil =>
    refine ⟨s, [], (List.append_nil _).symm, rfl, fun rest n => ?_⟩
    rw [List.length_nil, Nat.zero_add, List.nil_append]
  | cons a as ih =>
    obtain ⟨v, rs, hv, hlen, hstep⟩ := step_takes s a
    obtain ⟨u, rs', hu, hlen', hrun⟩ := ih v
    refine ⟨u, rs ++ rs', by rw [hu, hv, List.append_assoc], ?_, fun rest n => ?_⟩
    · have hcount : answered (a :: as) = answered [a] + answered as := by
        rw [answered, ← List.singleton_append, List.filter_append, List.length_append]; rfl
      rw [List.length_append, hlen, hlen', hcount]
    · rw [List.length_cons, Nat.add_right_comm, List.cons_append, run_succ (hstep (as ++ rest)), hrun]

/-- Settles O7: the run over `as` ends in one state `u`, whatever actions follow. -/
theorem runsTakeActionsInOrder : Obligations.RunsTakeActionsInOrder := by
  intro s as bs
  obtain ⟨u, rs, hu, hlen, hrun⟩ := run_takes as s
  have halone := hrun [] 0
  rw [List.append_nil] at halone
  exact ⟨{ u with pending := bs }, { u with pending := [] }, hrun bs 0, rfl, ⟨rs, hu, hlen⟩, halone, rfl,
    hrun bs bs.length⟩

/-! ### Bits of a push -/

/-- The first `m` of `m + n` bits are the value above `2 ^ n`, the others its remainder. -/
theorem bitsMsb_add (m n v : Nat) :
    bitsMsb (m + n) v = bitsMsb m (v / 2 ^ n) ++ bitsMsb n (v % 2 ^ n) := by
  unfold bitsMsb
  rw [List.range_add, List.map_append, List.map_map]
  congr 1 <;> refine List.map_congr_left fun k hk => ?_
  · rw [List.mem_range] at hk
    rw [Nat.testBit_div_two_pow]
    congr 1; omega
  · rw [List.mem_range] at hk
    rw [Nat.testBit_mod_two_pow, decide_eq_true (by omega), Bool.true_and, Function.comp_apply]
    congr 1; omega

/-- A symbol's five bits behind `c` bits. -/
theorem bitsMsb_append_symbol (c acc : Nat) (sym : Symbol) :
    bitsMsb c acc ++ bitsMsb 5 sym.toNat = bitsMsb (c + 5) (acc * 32 + sym.toNat) := by
  have hsym : sym.toNat < 32 := sym.isLt
  rw [bitsMsb_add, show (acc * 32 + sym.toNat) / 2 ^ 5 = acc by omega,
    show (acc * 32 + sym.toNat) % 2 ^ 5 = sym.toNat by omega]

/-- The pending bits of a state whose ACC and CNT were written with `n` bits of value `v`. -/
theorem pendingBits_of_written {s : State} {n v : Nat} (hcnt : s.cnt = BitVec.ofNat 4 n)
    (hacc : s.acc = BitVec.ofNat 12 v) (hn : n ≤ 7) (hv : v < 2 ^ n) : pendingBits s = bitsMsb n v := by
  have hv12 : v < 2 ^ 12 := hv.trans_le (Nat.pow_le_pow_right (by omega) (by omega))
  rw [pendingBits, hcnt, hacc, BitVec.toNat_ofNat, BitVec.toNat_ofNat, Nat.mod_eq_of_lt hv12,
    Nat.mod_eq_of_lt (by omega)]

/-- The response's data of an emitted byte. -/
theorem ofNat_emitted {v : Nat} (hv : v < 256) :
    BitVec.ofNat 32 (0x100 + v) = 0#23 ++ 1#1 ++ BitVec.ofNat 8 v := by
  apply BitVec.eq_of_toNat_eq
  rw [BitVec.toNat_append, BitVec.toNat_ofNat, BitVec.toNat_ofNat, Nat.mod_eq_of_lt hv,
    Nat.mod_eq_of_lt (by omega), ← Nat.shiftLeft_add_eq_or_of_lt hv]
  rfl

/-- With 3 or more bits pending, ACCEPT leaves the bits behind the first eight pending. -/
theorem pendingBits_accept_emits {s : State} (hs : s.Inv) (sym : Symbol) (h : 3 ≤ s.cnt.toNat) :
    pendingBits (accept sym s) =
      bitsMsb (s.cnt.toNat - 3) ((s.acc.toNat * 32 + sym.toNat) % 2 ^ (s.cnt.toNat - 3)) := by
  obtain ⟨hcnt, -⟩ := hs
  rw [accept_emits sym s h]
  exact pendingBits_of_written rfl rfl (by omega) (Nat.mod_lt _ (by positivity))

/-- With fewer than 3 bits pending, ACCEPT leaves all bits pending. -/
theorem pendingBits_accept_holds {s : State} (hs : s.Inv) (sym : Symbol) (h : s.cnt.toNat < 3) :
    pendingBits (accept sym s) = bitsMsb (s.cnt.toNat + 5) (s.acc.toNat * 32 + sym.toNat) := by
  rw [accept_holds sym s h]
  exact pendingBits_of_written rfl rfl (by omega) (appended_lt hs sym)

/-- ACCEPT emits the first eight bits of the pending ones and the symbol's. -/
theorem accept_moves_bits_emitting {s : State} (hs : s.Inv) (sym : Symbol) (h : 3 ≤ s.cnt.toNat) :
    ∃ b : Byte, (accept sym s).responses = s.responses ++ [⟨.ok, 0#23 ++ 1#1 ++ b⟩] ∧
      pendingBits s ++ bitsMsb 5 sym.toNat = bitsMsb 8 b.toNat ++ pendingBits (accept sym s) := by
  have hbyte := firstBits_lt hs sym h
  have hlen : s.cnt.toNat + 5 = 8 + (s.cnt.toNat - 3) := by omega
  refine ⟨BitVec.ofNat 8 ((s.acc.toNat * 32 + sym.toNat) / 2 ^ (s.cnt.toNat - 3)), ?_, ?_⟩
  · rw [← ofNat_emitted hbyte, accept_emits sym s h]; rfl
  · rw [pendingBits_accept_emits hs sym h, BitVec.toNat_ofNat, Nat.mod_eq_of_lt hbyte, ← bitsMsb_add,
      ← hlen, ← bitsMsb_append_symbol, pendingBits]

/-- ACCEPT emits nothing while the pending bits and the symbol's make no byte. -/
theorem accept_moves_bits_holding {s : State} (hs : s.Inv) (sym : Symbol) (h : s.cnt.toNat < 3) :
    (accept sym s).responses = s.responses ++ [⟨.ok, 0#32⟩] ∧
      pendingBits s ++ bitsMsb 5 sym.toNat = pendingBits (accept sym s) := by
  constructor
  · rw [accept_holds sym s h]; rfl
  · rw [pendingBits_accept_holds hs sym h, ← bitsMsb_append_symbol, pendingBits]

/-- An open message accepts the symbol of a push of either kind. -/
theorem exec_push_accepts {s : State} {sym : Symbol} {i : Instr} (hopen : s.ended = false)
    (hi : i = .pushs sym ∨ ∃ chr, i = .pushc chr ∧ alpha chr = some sym) :
    exec i s = .next (accept sym s) := by
  rcases hi with rfl | ⟨chr, rfl, ha⟩
  · exact exec_pushs_open sym hopen
  · exact exec_pushc_open hopen ha

/-- Settles O25, by the two cases of ACCEPT. -/
theorem acceptMovesBitsInOrder : Obligations.AcceptMovesBitsInOrder := by
  intro s t sym i hs hopen hi hexec
  rw [exec_push_accepts hopen hi] at hexec
  obtain rfl := Host.Outcome.next.inj hexec
  exact ⟨accept_moves_bits_emitting hs sym, accept_moves_bits_holding hs sym⟩

end Sys2Proof.Proofs

namespace Sys2Proof.Proofs
open Sys2Proof.Machine Sys2Proof.Laws

/-! ### Legal words -/

/-- The number of bits of a format's operand fields, all at the word's low end (R81). -/
def fieldBits : Format → Nat
  | .f0 => 0
  | .fs => 5
  | .fc => 8
  | .fv => 16
  | .fr => 15
  | .fn => 24
  | .fa => 16
  | .fm => 27
  | .fi => 4
  | .fe => 6

/-- The match of the opcode table: the opcode's code above reserved bits that are 0 (R84). -/
def LegalFor (op : Opcode) (w : Word) : Prop := w &&& op.format.mask = op.code ++ 0#28

theorem mask_eq_shiftLeft (f : Format) : f.mask = BitVec.allOnes 32 <<< fieldBits f := by
  cases f <;> rfl

theorem fieldBits_le (f : Format) : fieldBits f ≤ 28 := by
  cases f <;> decide

theorem toNat_append_add {m n : Nat} (x : BitVec m) (y : BitVec n) :
    (x ++ y).toNat = x.toNat * 2 ^ n + y.toNat := by
  rw [BitVec.toNat_append, ← Nat.shiftLeft_add_eq_or_of_lt y.isLt, Nat.shiftLeft_eq]

theorem toNat_field (w : Word) (len : Nat) : (w.extractLsb' 0 len).toNat = w.toNat % 2 ^ len := by
  rw [BitVec.extractLsb'_toNat, Nat.shiftRight_zero]

theorem toNat_zero_append (m : Nat) {n : Nat} (y : BitVec n) : (0#m ++ y).toNat = y.toNat := by
  rw [toNat_append_add, BitVec.toNat_zero, Nat.zero_mul, Nat.zero_add]

theorem toNat_and_highBits (w : Word) (k : Nat) :
    (w &&& BitVec.allOnes 32 <<< k).toNat = w.toNat / 2 ^ k * 2 ^ k := by
  have hle : w.toNat / 2 ^ k * 2 ^ k < 2 ^ 32 := (Nat.div_mul_le_self _ _).trans_lt w.isLt
  rw [← BitVec.shiftLeft_ushiftRight, BitVec.toNat_shiftLeft, BitVec.toNat_ushiftRight,
    Nat.shiftRight_eq_div_pow, Nat.shiftLeft_eq, Nat.mod_eq_of_lt hle]

theorem toNat_code_append (op : Opcode) :
    (op.code ++ 0#28 : Word).toNat = op.code.toNat * 2 ^ 28 :=
  (toNat_append_add op.code 0#28).trans (Nat.add_zero _)

/-- A legal word is its opcode's code above the value of its operand fields. -/
theorem legalFor_iff_toNat (op : Opcode) (w : Word) :
    LegalFor op w ↔ w.toNat = op.code.toNat * 2 ^ 28 + w.toNat % 2 ^ fieldBits op.format := by
  have hdiv := Nat.div_add_mod' w.toNat (2 ^ fieldBits op.format)
  rw [LegalFor, ← BitVec.toNat_inj, mask_eq_shiftLeft, toNat_and_highBits, toNat_code_append]
  omega

theorem operands_opcode (op : Opcode) (w : Word) : (op.operands w).opcode = op := by
  cases op <;> rfl

theorem toNat_encode (i : Instr) :
    (encode i).toNat = i.opcode.code.toNat * 2 ^ 28 + i.operandBits.toNat := toNat_append_add _ _

/-- The fields an opcode reads from a word are together the word's low bits. -/
theorem toNat_operandBits_operands (op : Opcode) (w : Word) :
    (op.operands w).operandBits.toNat = w.toNat % 2 ^ fieldBits op.format := by
  cases op with
  | nop | clr | endMsg => exact (Nat.mod_one _).symm
  | maps =>
    simp only [Opcode.operands, Instr.operandBits, toNat_append_add, BitVec.extractLsb'_toNat,
      Nat.shiftRight_eq_div_pow, Opcode.format, fieldBits, BitVec.toNat_zero]
    omega
  | _ => exact (toNat_zero_append _ _).trans (toNat_field w _)

/-- The operands read from a command's word are the command's own. -/
theorem operands_encode (i : Instr) : i.opcode.operands (encode i) = i := by
  have hfield : ∀ start len, start + len ≤ 28 →
      (encode i).extractLsb' start len = i.operandBits.extractLsb' start len := fun _ _ h =>
    BitVec.extractLsb'_append_eq_of_add_le h
  cases i with
  | nop | clr | endMsg => rfl
  | maps slot frm =>
    have hslot : (0#1 ++ slot ++ frm : BitVec 28).extractLsb' 24 3 = slot :=
      (BitVec.extractLsb'_append_eq_of_le (Nat.le_refl 24)).trans BitVec.extractLsb'_append_eq_right
    have hfrm : (0#1 ++ slot ++ frm : BitVec 28).extractLsb' 0 24 = frm :=
      BitVec.extractLsb'_append_eq_right
    simp [Instr.opcode, Opcode.operands, hfield, Instr.operandBits, hslot, hfrm]
  | _ => exact congrArg _ ((hfield 0 _ (by decide)).trans BitVec.extractLsb'_append_eq_right)

/-- A word is legal for an opcode exactly if its fields encode back to it. -/
theorem legalFor_iff_encode (op : Opcode) (w : Word) : LegalFor op w ↔ encode (op.operands w) = w := by
  rw [legalFor_iff_toNat, ← BitVec.toNat_inj, toNat_encode, operands_opcode,
    toNat_operandBits_operands, eq_comm]

/-- The opcode's row masks all of the opcode field. -/
theorem LegalFor.opField_eq {op : Opcode} {w : Word} (h : LegalFor op w) : opField w = op.code := by
  rw [← (legalFor_iff_encode op w).1 h, encode, opField_append, operands_opcode]

theorem decode_ok_iff_legalFor (w : Word) (i : Instr) :
    decode w = .ok i ↔ ∃ op, LegalFor op w ∧ op.operands w = i := by
  rw [decode_ok_iff]
  exact exists_congr fun op => ⟨fun ⟨_, h⟩ => h, fun h => ⟨h.1.opField_eq, h⟩⟩

/-- The words that decode to a command of an opcode are the legal ones of its row. -/
theorem decodes_to_opcode_iff (w : Word) (op : Opcode) :
    (∃ i, decode w = .ok i ∧ i.opcode = op) ↔ LegalFor op w := by
  constructor
  · rintro ⟨i, hdecode, rfl⟩
    obtain ⟨op, hlegal, rfl⟩ := (decode_ok_iff_legalFor w i).1 hdecode
    rwa [operands_opcode]
  · exact fun h => ⟨op.operands w, (decode_ok_iff_legalFor w _).2 ⟨op, h, rfl⟩, operands_opcode op w⟩

/-! ### The round trip -/

/-- A word decodes to a command exactly if it is the command's word (R86). -/
theorem decode_ok_iff_encode (w : Word) (i : Instr) : decode w = .ok i ↔ encode i = w := by
  rw [decode_ok_iff_legalFor]
  constructor
  · rintro ⟨op, hlegal, rfl⟩
    exact (legalFor_iff_encode op w).1 hlegal
  · rintro rfl
    have hback := operands_encode i
    exact ⟨i.opcode, (legalFor_iff_encode _ _).2 (congrArg encode hback), hback⟩

/-- Settles O11: a command's word is legal for its opcode, and its fields are the operands. -/
theorem encodeThenDecode : Obligations.EncodeThenDecode := fun i =>
  (decode_ok_iff_encode (encode i) i).2 rfl

/-- Settles O12: a legal word has no bits beyond its opcode's code and its fields. -/
theorem decodeThenEncode : Obligations.DecodeThenEncode := fun w i =>
  (decode_ok_iff_encode w i).1

/-! ### The opcode table -/

/-- The 13 opcodes in the order of R82. -/
def opcodes : List Opcode :=
  [.nop, .clr, .pushs, .pushc, .endMsg, .setcx, .setcy, .setr, .setn, .mapa, .maps, .rdreg, .eclr]

theorem mem_opcodes (op : Opcode) : op ∈ opcodes := by
  cases op <;> decide

/-- Settles O9: the table's rows are each opcode with its format's mask and its code. -/
theorem decodeFollowsOpcodeTable : Obligations.DecodeFollowsOpcodeTable := by
  unfold Obligations.DecodeFollowsOpcodeTable
  intro table w op
  have htable : table = opcodes.map fun op => (op, op.format.mask, op.code ++ 0#28) := by decide
  rw [decodes_to_opcode_iff, htable]
  simp [mem_opcodes, LegalFor]

/-! ### Illegal words -/

/-- The reserved bits of a format: its mask without the opcode field (R81). -/
def reservedBits (f : Format) : Word := f.mask &&& 0x0FFFFFFF#32

theorem code_injective {op op' : Opcode} (h : op.code = op'.code) : op = op' :=
  Option.some.inj (((opcodeOf_eq_some_iff _ op).2 rfl).symm.trans ((opcodeOf_eq_some_iff _ op').2 h))

theorem toNat_opField (w : Word) : (opField w).toNat = w.toNat / 2 ^ 28 := by
  have hw : w.toNat < 2 ^ 32 := w.isLt
  rw [opField, BitVec.extractLsb'_toNat, Nat.shiftRight_eq_div_pow]
  omega

theorem code_lt (op : Opcode) : op.code.toNat < 0xD := by
  cases op <;> decide

theorem exists_code_of_lt (c : BitVec 4) (h : c.toNat < 0xD) : ∃ op ∈ opcodes, op.code = c := by
  revert c; decide

theorem and_opcodeBits (w : Word) : w &&& 0xF0000000#32 = opField w ++ 0#28 := by
  apply BitVec.eq_of_toNat_eq
  rw [toNat_append_add, toNat_opField]
  exact (toNat_and_highBits w 28).trans (Nat.add_zero _).symm

/-- Under its opcode, a word is legal exactly if its reserved bits are 0 (R84). -/
theorem legalFor_iff_reservedBits {op : Opcode} {w : Word} (h : opField w = op.code) :
    LegalFor op w ↔ w &&& reservedBits op.format = 0#32 := by
  have hmask : op.format.mask = 0xF0000000#32 ||| reservedBits op.format := by cases op <;> decide
  have hcode : (op.code ++ 0#28 : Word) &&& 0x0FFFFFFF#32 = 0#32 := by cases op <;> decide
  constructor
  · intro hlegal
    rw [reservedBits, ← BitVec.and_assoc, hlegal, hcode]
  · intro hzero
    rw [LegalFor, hmask, BitVec.and_or_distrib_left, hzero, and_opcodeBits, h, BitVec.or_zero]

/-- A word is a command exactly if its opcode is no reserved one and its format's reserved bits are 0. -/
theorem decodes_iff (w : Word) :
    (∃ i, decode w = .ok i) ↔ w.toNat / 2 ^ 28 < 0xD ∧
      ∀ op : Opcode, w.toNat / 2 ^ 28 = op.code.toNat → w &&& reservedBits op.format = 0#32 := by
  rw [← toNat_opField]
  simp only [BitVec.toNat_inj]
  constructor
  · rintro ⟨i, hdecode⟩
    obtain ⟨op, hlegal, -⟩ := (decode_ok_iff_legalFor w i).1 hdecode
    have hop := hlegal.opField_eq
    refine ⟨hop ▸ code_lt op, fun op' hop' => ?_⟩
    obtain rfl := code_injective (hop'.symm.trans hop)
    exact (legalFor_iff_reservedBits hop).1 hlegal
  · rintro ⟨hlt, hzero⟩
    obtain ⟨op, -, hop⟩ := exists_code_of_lt _ hlt
    have hlegal := (legalFor_iff_reservedBits hop.symm).2 (hzero op hop.symm)
    exact ⟨op.operands w, (decode_ok_iff_legalFor w _).2 ⟨op, hlegal, rfl⟩⟩

theorem wordIllegal_of_decode_error {w : Word} {e : Illegal} (h : decode w = .error e) :
    wordIllegal w := by
  intro s rest hpending
  rw [step_command s w rest hpending, runWord_illegal w e _ h, fail_eq_reply, stickyBits_enc]

/-- Settles O8: the listed rows are each opcode's code with its format's reserved bits. -/
theorem illegalWordsRespondEnc : Obligations.IllegalWordsRespondEnc := by
  unfold Obligations.IllegalWordsRespondEnc
  intro reserved isIllegal w
  have hreserved : reserved = opcodes.map fun op => (op.code, reservedBits op.format) := by decide
  have hlegal : ¬ isIllegal w ↔ ∃ i, decode w = .ok i := by
    rw [decodes_iff]
    simp [isIllegal, hreserved, mem_opcodes]
  refine ⟨fun hillegal => ?_, hlegal.1⟩
  cases hdecode : decode w with
  | error e => exact wordIllegal_of_decode_error hdecode
  | ok i => exact absurd hillegal (hlegal.2 ⟨i, hdecode⟩)

/-! ### Operand fields -/

theorem toInt_field (w : Word) : (w.extractLsb' 0 16).toInt =
    if w.toNat % 65536 < 32768 then ((w.toNat % 65536 : Nat) : Int)
    else ((w.toNat % 65536 : Nat) : Int) - 65536 := by
  rw [BitVec.toInt_eq_toNat_cond, toNat_field]
  split <;> split <;> omega

/-- Settles O10, by the opcode of the word: a command's operands are the fields `Opcode.operands` reads. -/
theorem operandsAreTheirFields : Obligations.OperandsAreTheirFields := by
  intro w i hdecode
  obtain ⟨op, -, rfl⟩ := (decode_ok_iff_legalFor w i).1 hdecode
  cases op with
  | nop | clr | endMsg => trivial
  | setcx | setcy => exact toInt_field w
  | maps =>
    refine ⟨?_, toNat_field w 24⟩
    rw [BitVec.extractLsb'_toNat, Nat.shiftRight_eq_div_pow]
  | _ => exact toNat_field w _

/-! ### Counting legal words -/

/-- Field bits put below an opcode's code add their value to it. -/
theorem toNat_code_append_field (op : Opcode) (v : BitVec (fieldBits op.format)) :
    (op.code ++ v.setWidth 28 : Word).toNat = op.code.toNat * 2 ^ 28 + v.toNat := by
  have hv : v.toNat < 2 ^ 28 := v.isLt.trans_le (Nat.pow_le_pow_right (by decide) (fieldBits_le _))
  rw [← Nat.mod_eq_of_lt hv, ← BitVec.toNat_setWidth]
  exact toNat_append_add _ _

/-- The field bits are the word's low bits. -/
theorem toNat_code_append_field_mod (op : Opcode) (v : BitVec (fieldBits op.format)) :
    (op.code ++ v.setWidth 28 : Word).toNat % 2 ^ fieldBits op.format = v.toNat := by
  have hcode : 2 ^ fieldBits op.format ∣ op.code.toNat * 2 ^ 28 :=
    Dvd.dvd.mul_left (Nat.pow_dvd_pow 2 (fieldBits_le _)) _
  rw [toNat_code_append_field, Nat.add_mod, Nat.mod_eq_zero_of_dvd hcode, Nat.zero_add, Nat.mod_mod,
    Nat.mod_eq_of_lt v.isLt]

/-- A legal word of an opcode is the bits of its fields, below zeros and the opcode's code. -/
def legalWordEquiv (op : Opcode) : { w : Word // LegalFor op w } ≃ BitVec (fieldBits op.format) where
  toFun w := w.1.setWidth _
  invFun v := ⟨op.code ++ v.setWidth 28, by
    rw [legalFor_iff_toNat, toNat_code_append_field_mod, toNat_code_append_field]⟩
  left_inv w := by
    obtain ⟨w, hlegal⟩ := w
    apply Subtype.ext
    apply BitVec.eq_of_toNat_eq
    rw [toNat_code_append_field, BitVec.toNat_setWidth]
    exact ((legalFor_iff_toNat op w).1 hlegal).symm
  right_inv v := by
    apply BitVec.eq_of_toNat_eq
    rw [BitVec.toNat_setWidth, toNat_code_append_field_mod]

/-- R86: an opcode has one legal word per value of its fields. -/
theorem card_legalWords (op : Opcode) :
    Nat.card { w : Word // ∃ i, decode w = .ok i ∧ i.opcode = op } = 2 ^ fieldBits op.format := by
  simp only [decodes_to_opcode_iff]
  exact Nat.card_eq_of_equiv_fin ((legalWordEquiv op).trans BitVec.equivFin.toEquiv)

/-- Settles O13: the width of each opcode's fields is that of its format. -/
theorem legalWordCounts : Obligations.LegalWordCounts :=
  ⟨card_legalWords .nop, card_legalWords .clr, card_legalWords .endMsg, card_legalWords .pushs,
    card_legalWords .pushc, card_legalWords .setcx, card_legalWords .setcy, card_legalWords .mapa,
    card_legalWords .setr, card_legalWords .setn, card_legalWords .maps, card_legalWords .rdreg,
    card_legalWords .eclr⟩

/-! ### Assembler -/

theorem inRange_eq (lo hi v : Int) : inRange lo hi v = decide (lo ≤ v ∧ v ≤ hi) :=
  (Bool.decide_and _ _).symm

/-- A line of one command assembles to that command's word, or to nothing outside its ranges. -/
theorem assemble_single {line : AsmLine} {p : Prop} [Decidable p] {word w : Word}
    (hwords : line.expand.map encode = [word]) (hranges : line.wellFormed = decide p)
    (hw : p → word = w) : assemble line = if decide p = true then some [w] else none := by
  rw [assemble, hwords, hranges]
  by_cases hp : p
  · rw [hw hp]
  · simp [hp]

/-- Operand bits of value `v` below an opcode are the value put into the opcode's word. -/
theorem code_append_eq_or_ofInt (op : Opcode) {bits : BitVec 28} {v : Int} (h : (bits.toNat : Int) = v) :
    op.code ++ bits = (op.code ++ 0#28) ||| BitVec.ofInt 32 v := by
  subst h
  have hbits : bits.toNat < 2 ^ 32 := bits.isLt.trans (by decide)
  apply BitVec.eq_of_toNat_eq
  rw [BitVec.ofInt_natCast, BitVec.toNat_or, BitVec.toNat_ofNat, Nat.mod_eq_of_lt hbits,
    BitVec.toNat_append, BitVec.toNat_append, BitVec.toNat_zero, Nat.or_zero]

/-- An integer operand's field holds its residue. -/
theorem toNat_zero_append_ofInt (m n : Nat) (v : Int) :
    ((0#m ++ BitVec.ofInt n v).toNat : Int) = v % (2 ^ n : Nat) := by
  rw [toNat_zero_append, BitVec.toNat_ofInt, Int.toNat_of_nonneg (Int.emod_nonneg _ (by positivity))]

/-- A line with one signed operand `v`: in range, its word holds `v` modulo the field's size. -/
theorem assemble_signed {line : AsmLine} {bits : BitVec 28} {lo hi v : Int} (op : Opcode) (m n : Nat)
    (hwords : line.expand.map encode = [op.code ++ bits]) (hranges : line.wellFormed = inRange lo hi v)
    (hbits : bits.toNat = (0#m ++ BitVec.ofInt n v).toNat) :
    assemble line = if decide (lo ≤ v ∧ v ≤ hi) = true then
      some [(op.code ++ 0#28) ||| BitVec.ofInt 32 (v % (2 ^ n : Nat))] else none := by
  refine assemble_single hwords (hranges.trans (inRange_eq lo hi v)) fun _ =>
    code_append_eq_or_ofInt op ?_
  rw [hbits, toNat_zero_append_ofInt]

/-- A line with one unsigned operand `v`, whose range is the whole field: in range, its word holds `v`. -/
theorem assemble_unsigned {line : AsmLine} {bits : BitVec 28} {hi v : Int} (op : Opcode) (m n : Nat)
    (hwords : line.expand.map encode = [op.code ++ bits]) (hranges : line.wellFormed = inRange 0 hi v)
    (hbits : bits.toNat = (0#m ++ BitVec.ofInt n v).toNat) (hhi : hi + 1 = (2 ^ n : Nat)) :
    assemble line = if decide (0 ≤ v ∧ v ≤ hi) = true then
      some [(op.code ++ 0#28) ||| BitVec.ofInt 32 v] else none := by
  refine assemble_single hwords (hranges.trans (inRange_eq 0 hi v)) fun ⟨hlo, hle⟩ =>
    code_append_eq_or_ofInt op ?_
  rw [hbits, toNat_zero_append_ofInt, Int.emod_eq_of_lt hlo (by omega)]

/-- A character operand is its code when that is at most 127 (log entry 11). -/
theorem assemble_pushcChar (c : Char) :
    assemble (.pushcChar c) = if decide (c.toNat ≤ 127) = true then
      some [(Opcode.pushc.code ++ 0#28) ||| BitVec.ofInt 32 c.toNat] else none := by
  refine assemble_single rfl (decide_eq_decide.2 Nat.lt_succ_iff) fun hc =>
    code_append_eq_or_ofInt .pushc (congrArg Nat.cast ?_)
  exact (toNat_zero_append 20 (charCode c)).trans (Nat.mod_eq_of_lt (by omega))

/-- The operand bits of MAPS: the slot above the 24 bits of the frame. -/
theorem toNat_slot_frame {slot f : Nat} (hslot : slot ≤ 7) (hf : f ≤ 16777215) :
    (Instr.maps (BitVec.ofNat 3 slot) (BitVec.ofNat 24 f)).operandBits.toNat = slot * 2 ^ 24 + f := by
  rw [Instr.operandBits]
  simp only [toNat_append_add, BitVec.toNat_ofNat]
  omega

theorem ofNat_slot_frame {slot f : Nat} (hslot : slot ≤ 7) (hf : f ≤ 16777215) :
    BitVec.ofNat 32 (slot * 2 ^ 24 + f) = BitVec.ofNat 32 slot <<< 24 ||| BitVec.ofNat 32 f := by
  apply BitVec.eq_of_toNat_eq
  rw [BitVec.toNat_or, BitVec.toNat_shiftLeft, BitVec.toNat_ofNat, BitVec.toNat_ofNat,
    BitVec.toNat_ofNat, Nat.mod_eq_of_lt (a := f) (by omega), Nat.mod_eq_of_lt (a := slot) (by omega),
    Nat.mod_eq_of_lt (by omega), Nat.mod_eq_of_lt (by rw [Nat.shiftLeft_eq]; omega),
    ← Nat.shiftLeft_add_eq_or_of_lt (by omega), Nat.shiftLeft_eq]

theorem encode_maps_ofNat {slot f : Nat} (hslot : slot ≤ 7) (hf : f ≤ 16777215) :
    encode (.maps (BitVec.ofNat 3 slot) (BitVec.ofNat 24 f)) =
      (Opcode.maps.code ++ 0#28) ||| BitVec.ofNat 32 slot <<< 24 ||| BitVec.ofNat 32 f := by
  have hbits := congrArg (Nat.cast : Nat → Int) (toNat_slot_frame hslot hf)
  rw [encode, code_append_eq_or_ofInt _ hbits, BitVec.ofInt_natCast, ofNat_slot_frame hslot hf,
    BitVec.or_assoc, Instr.opcode]

theorem assemble_maps (slot f : Int) :
    assemble (.maps slot f) = if decide (0 ≤ slot ∧ slot ≤ 7 ∧ 0 ≤ f ∧ f ≤ 16777215) = true then
      some [(Opcode.maps.code ++ 0#28) ||| BitVec.ofInt 32 slot <<< 24 ||| BitVec.ofInt 32 f]
      else none := by
  refine assemble_single (word := encode (.maps (BitVec.ofInt 3 slot) (BitVec.ofInt 24 f))) rfl ?_ ?_
  · simp [AsmLine.wellFormed, inRange, Bool.and_assoc]
  · rintro ⟨hslot, hslot', hf, hf'⟩
    lift slot to Nat using hslot
    lift f to Nat using hf
    simp only [BitVec.ofInt_natCast]
    exact encode_maps_ofNat (by omega) (by omega)

/-- Settles O15: the forms with one integer operand, the character form, MAPS, and the register names. -/
theorem assemblerWords : Obligations.AssemblerWords :=
  ⟨rfl, rfl, rfl,
    fun _ => assemble_unsigned .pushs 23 5 rfl rfl rfl rfl,
    fun _ => assemble_unsigned .pushc 20 8 rfl rfl rfl rfl,
    assemble_pushcChar,
    fun _ => assemble_signed .setcx 12 16 rfl rfl rfl,
    fun _ => assemble_signed .setcy 12 16 rfl rfl rfl,
    fun _ => assemble_unsigned .setr 13 15 rfl rfl rfl rfl,
    fun _ => assemble_unsigned .setn 4 24 rfl rfl rfl rfl,
    fun _ => assemble_unsigned .mapa 12 16 rfl rfl rfl rfl,
    assemble_maps,
    fun _ => assemble_unsigned .rdreg 24 4 rfl rfl rfl rfl,
    fun _ => assemble_unsigned .eclr 22 6 rfl rfl rfl rfl,
    rfl⟩

/-! ### Pseudo-instructions -/

/-- A line whose commands are those of two lines assembles to the words of both, or is rejected with
either. -/
theorem assemble_append {line first second : AsmLine}
    (hranges : line.wellFormed = (first.wellFormed && second.wellFormed))
    (hexpand : line.expand = first.expand ++ second.expand) :
    assemble line = match assemble first, assemble second with
      | some w, some ws => some (w ++ ws)
      | _, _ => none := by
  cases hfirst : first.wellFormed <;> cases hsecond : second.wellFormed <;>
    simp [assemble, hranges, hexpand, hfirst, hsecond]

/-- Settles O16: PUSHSTR and SETC join the words of two lines, RDSTAT and CLRERR are another line's. -/
theorem pseudoExpansions : Obligations.PseudoExpansions :=
  ⟨rfl, fun _ _ => assemble_append rfl rfl, rfl, rfl, fun _ _ => assemble_append rfl rfl⟩

/-! ### Worked encodings -/

/-- Settles O14, on the fixed words of R91. -/
theorem workedEncodings : Obligations.WorkedEncodings := by
  unfold Obligations.WorkedEncodings
  decide

end Sys2Proof.Proofs

namespace Sys2Proof.Proofs
open Sys2Proof.Machine Sys2Proof.Laws

/-! ### The source's codec (R111) -/

theorem bitsMsb_length (w v : Nat) : (bitsMsb w v).length = w := by
  simp [bitsMsb]

theorem pack_cons (w v : Nat) (vs : List Nat) : pack w (v :: vs) = bitsMsb w v ++ pack w vs := rfl

theorem pack_append (w : Nat) (us vs : List Nat) : pack w (us ++ vs) = pack w us ++ pack w vs :=
  List.flatMap_append

theorem pack_length (w : Nat) (vs : List Nat) : (pack w vs).length = w * vs.length := by
  induction vs with
  | nil => rfl
  | cons v vs ih => rw [pack_cons, List.length_append, bitsMsb_length, ih, List.length_cons]; ring

/-- Folding the bits of a value that fits gives the value back (R64). -/
theorem foldBits_bitsMsb {w v : Nat} (hv : v < 2 ^ w) : foldBits (bitsMsb w v) = v := by
  induction w generalizing v with
  | zero => obtain rfl : v = 0 := by simpa using hv
            rfl
  | succ w ih =>
    have hhalf : v / 2 ^ 1 < 2 ^ w := by rw [pow_succ] at hv; omega
    have hlast : foldBits (bitsMsb w (v / 2 ^ 1) ++ bitsMsb 1 (v % 2 ^ 1)) =
        2 * foldBits (bitsMsb w (v / 2 ^ 1)) + ((v % 2).testBit 0).toNat := by
      simp [foldBits, bitsMsb]
    rw [bitsMsb_add, hlast, ih hhalf]
    rcases Nat.mod_two_eq_zero_or_one v with h | h <;> simp [h] <;> omega

/-- Fewer bits than a group are a remainder, which is dropped. -/
theorem unpackFrom_remainder {w : Nat} {group bits : List Bool} (h : group.length + bits.length < w) :
    unpackFrom w group bits = [] := by
  induction bits generalizing group with
  | nil => rfl
  | cons b bits ih =>
    rw [List.length_cons] at h
    have hnot : (group ++ [b]).length ≠ w := by rw [List.length_append, List.length_singleton]; omega
    rw [unpackFrom, if_neg hnot]
    exact ih (by rw [List.length_append, List.length_singleton]; omega)

/-- The bits that complete a group are folded with it. -/
theorem unpackFrom_group {w : Nat} {group bits : List Bool} (rest : List Bool)
    (hbits : bits ≠ []) (h : group.length + bits.length = w) :
    unpackFrom w group (bits ++ rest) = foldBits (group ++ bits) :: unpackFrom w [] rest := by
  induction bits generalizing group with
  | nil => exact absurd rfl hbits
  | cons b bits ih =>
    rw [List.cons_append, unpackFrom]
    by_cases hnil : bits = []
    · subst hnil
      rw [if_pos (by simpa using h), List.nil_append]
    · have hpos := List.length_pos_iff.2 hnil
      rw [List.length_cons] at h
      have hlen : (group ++ [b]).length = group.length + 1 := by simp
      rw [if_neg (by omega), ih hnil (by omega), List.append_assoc, List.singleton_append]

/-- Values of `w` bits, packed and followed by a remainder, are read back. -/
theorem unpack_pack {w : Nat} (hw : 0 < w) {vs : List Nat} (hvs : ∀ v ∈ vs, v < 2 ^ w)
    {rest : List Bool} (hrest : rest.length < w) : unpack w (pack w vs ++ rest) = vs := by
  induction vs with
  | nil => exact unpackFrom_remainder (by simpa [pack] using hrest)
  | cons v vs ih =>
    obtain ⟨hv, hvs⟩ := List.forall_mem_cons.1 hvs
    have hlen := bitsMsb_length w v
    have hgroup := unpackFrom_group (group := []) (pack w vs ++ rest)
      (List.ne_nil_of_length_pos (hlen.symm ▸ hw)) ((Nat.zero_add _).trans hlen)
    rw [pack_cons, List.append_assoc, unpack, hgroup, List.nil_append, foldBits_bitsMsb hv]
    exact congrArg (v :: ·) (ih hvs)

/-! ### The bits of a message -/

/-- The symbols of a message are 5-bit values. -/
theorem messageSymbols_lt {ws : List Word} : ∀ v ∈ messageSymbols ws, v < 2 ^ 5 := by
  intro v hv
  obtain ⟨w, -, hvw⟩ := List.mem_flatMap.1 hv
  unfold wordSymbols at hvw
  split at hvw
  case h_1 sym _ => rw [List.mem_singleton.1 hvw]; exact sym.isLt
  case h_2 chr _ =>
    obtain ⟨sym, -, rfl⟩ := Option.map_eq_some_iff.1 (Option.mem_toList.1 hvw)
    exact sym.isLt
  case h_3 => cases hvw

/-- A push carries the data's low byte exactly if it responds OK with data bit 8 (R69). -/
theorem wordBytes_of_item {w : Word} (h : isItem w = true) (r : Response) :
    wordBytes w r = if r.status = .ok ∧ r.data.getLsbD 8 = true then [r.data.toNat % 256] else [] := by
  rcases (isItem_iff w).1 h with ⟨sym, hw⟩ | ⟨chr, hw⟩ <;> simp [wordBytes, hw]

theorem wordBytes_lt {w : Word} {r : Response} : ∀ b ∈ wordBytes w r, b < 2 ^ 8 := by
  intro b hb
  cases hitem : isItem w with
  | false => rw [wordBytes_of_not_item hitem] at hb; cases hb
  | true =>
    rw [wordBytes_of_item hitem] at hb
    split at hb
    · rw [List.mem_singleton.1 hb]; exact Nat.mod_lt _ (by norm_num)
    · cases hb

/-- The bytes of a message are 8-bit values. -/
theorem messageBytes_lt {ws : List Word} {rs : List Response} : ∀ b ∈ messageBytes ws rs, b < 2 ^ 8 := by
  intro b hb
  obtain ⟨bytes, hbytes, hb⟩ := List.mem_flatten.1 hb
  rw [← List.map_uncurry_zip_eq_zipWith] at hbytes
  obtain ⟨⟨w, r⟩, -, rfl⟩ := List.mem_map.1 hbytes
  exact wordBytes_lt b hb

theorem messageSymbols_cons (w : Word) (ws : List Word) :
    messageSymbols (w :: ws) = wordSymbols w ++ messageSymbols ws := rfl

theorem pendingBits_length (s : State) : (pendingBits s).length = s.cnt.toNat := bitsMsb_length _ _

theorem SameRepacker.pendingBits_eq {s t : State} (h : SameRepacker s t) : pendingBits t = pendingBits s := by
  rw [pendingBits, pendingBits, h.acc, h.cnt]

/-- A push of a symbol, by its code or by its character, adds that symbol. -/
theorem wordSymbols_of_accepted {w : Word} {sym : Symbol}
    (h : decode w = .ok (.pushs sym) ∨ ∃ chr, decode w = .ok (.pushc chr) ∧ alpha chr = some sym) :
    wordSymbols w = [sym.toNat] := by
  rcases h with h | ⟨chr, h, ha⟩
  · simp [wordSymbols, h]
  · simp [wordSymbols, h, ha]

theorem wordSymbols_of_refused {w : Word} {chr : Byte} (h : decode w = .ok (.pushc chr))
    (ha : alpha chr = none) : wordSymbols w = [] := by
  simp [wordSymbols, h, ha]

theorem wordSymbols_of_not_item {w : Word} (h : isItem w = false) : wordSymbols w = [] := by
  unfold isItem at h
  unfold wordSymbols
  split at h <;> simp_all

/-- The emitted byte's response, read back. -/
theorem wordBytes_emitted {w : Word} (h : isItem w = true) (b : Byte) :
    wordBytes w ⟨.ok, 0#23 ++ 1#1 ++ b⟩ = [b.toNat] := by
  have hdata : (0#23 ++ 1#1 ++ b : Word) = BitVec.ofNat 32 (0x100 + b.toNat) := by
    rw [ofNat_emitted b.isLt, BitVec.ofNat_toNat, BitVec.setWidth_eq]
  have hbyte : (BitVec.ofNat 32 (0x100 + b.toNat)).toNat % 256 = b.toNat := by
    have hlt : b.toNat < 256 := b.isLt
    rw [BitVec.toNat_ofNat]
    omega
  rw [hdata, wordBytes_of_item h, if_pos ⟨rfl, emitted_bit8 b.isLt⟩, hbyte]

/-- A word that adds a symbol is an item. -/
theorem isItem_of_accepted {w : Word} {sym : Symbol}
    (h : decode w = .ok (.pushs sym) ∨ ∃ chr, decode w = .ok (.pushc chr) ∧ alpha chr = some sym) :
    isItem w = true :=
  (isItem_iff w).2 (h.imp (fun h => ⟨sym, h⟩) fun ⟨chr, h, _⟩ => ⟨chr, h⟩)

theorem isItem_eq_false {w : Word} (hpushs : ∀ sym, decode w ≠ .ok (.pushs sym))
    (hpushc : ∀ chr, decode w ≠ .ok (.pushc chr)) : isItem w = false := by
  rw [Bool.eq_false_iff, Ne, isItem_iff]
  rintro (⟨sym, h⟩ | ⟨chr, h⟩)
  · exact hpushs sym h
  · exact hpushc chr h

/-- Over one word of an open message, the bits pending and those of its symbol leave as the bits of its byte
and the bits still pending. -/
theorem OpenEffect.moves_bits {s u : State} {w : Word} {r : Response} (h : OpenEffect s w u) (hs : s.Inv)
    (hresponse : u.responses = s.responses ++ [r]) :
    pendingBits s ++ pack 5 (wordSymbols w) = pack 8 (wordBytes w r) ++ pendingBits u := by
  cases h with
  | accepted sym rest hword hu =>
    have hitem := isItem_of_accepted hword
    have hpack : pack 5 (wordSymbols w) = bitsMsb 5 sym.toNat := by
      rw [wordSymbols_of_accepted hword]; exact List.append_nil _
    rw [hpack, hu]
    by_cases hcnt : 3 ≤ s.cnt.toNat
    · obtain ⟨b, hb, hbits⟩ := accept_moves_bits_emitting (s := { s with pending := rest }) hs sym hcnt
      obtain rfl : r = ⟨.ok, 0#23 ++ 1#1 ++ b⟩ := by simpa [hu, hb] using hresponse.symm
      rw [wordBytes_emitted hitem, pack_cons]
      exact hbits
    · obtain ⟨hb, hbits⟩ :=
        accept_moves_bits_holding (s := { s with pending := rest }) hs sym (Nat.lt_of_not_le hcnt)
      obtain rfl : r = ⟨.ok, 0#32⟩ := by simpa [hu, hb] using hresponse.symm
      rw [wordBytes_of_item hitem]
      exact hbits
  | refused chr rest hword habsent hu =>
    have hitem : isItem w = true := (isItem_iff w).2 (.inr ⟨chr, hword⟩)
    obtain rfl : r = ⟨.char, 0#32⟩ := by simpa [hu] using hresponse.symm
    rw [wordSymbols_of_refused hword habsent, wordBytes_of_item hitem, hu]
    exact List.append_nil _
  | other hpushs hpushc hsame =>
    have hitem := isItem_eq_false hpushs hpushc
    rw [wordSymbols_of_not_item hitem, wordBytes_of_not_item hitem, hsame.pendingBits_eq]
    exact List.append_nil _

/-- An open message stays open, and within the invariant, over words that are neither CLR nor END. -/
theorem WordsRun.keeps_open {s t : State} {ws : List Word} {rs : List Response} (h : WordsRun s ws rs t)
    (hs : s.Inv) (hopen : s.ended = false) (hstay : ∀ w ∈ ws, staysInMessage w) :
    t.Inv ∧ t.ended = false := by
  induction h with
  | nil s => exact ⟨hs, hopen⟩
  | @cons s u _ _ _ _ _ _ hpending hstep _ _ ih =>
    obtain ⟨hw, hws⟩ := List.forall_mem_cons.1 hstay
    have heff := step_openEffect hopen hw hpending hstep
    exact ih (stepKeepsInvariant s u hs hstep) (heff.stays_open hopen) hws

/-- Over the words of an open message, the bits pending and those of the symbols leave as the bits of the
bytes and the bits still pending. -/
theorem WordsRun.moves_bits {s t : State} {ws : List Word} {rs : List Response} (h : WordsRun s ws rs t)
    (hs : s.Inv) (hopen : s.ended = false) (hstay : ∀ w ∈ ws, staysInMessage w) :
    pendingBits s ++ pack 5 (messageSymbols ws) = pack 8 (messageBytes ws rs) ++ pendingBits t := by
  induction h with
  | nil s => exact List.append_nil _
  | @cons s u t w ws r rs rest hpending hstep hresponse _ ih =>
    obtain ⟨hw, hws⟩ := List.forall_mem_cons.1 hstay
    have heff := step_openEffect hopen hw hpending hstep
    have hrest := ih (stepKeepsInvariant s u hs hstep) (heff.stays_open hopen) hws
    calc pendingBits s ++ pack 5 (messageSymbols (w :: ws))
        = (pendingBits s ++ pack 5 (wordSymbols w)) ++ pack 5 (messageSymbols ws) := by
          rw [messageSymbols_cons, pack_append, List.append_assoc]
      _ = pack 8 (wordBytes w r) ++ (pendingBits u ++ pack 5 (messageSymbols ws)) := by
          rw [heff.moves_bits hs hresponse, List.append_assoc]
      _ = pack 8 (messageBytes (w :: ws) (r :: rs)) ++ pendingBits t := by
          rw [hrest, messageBytes_cons, pack_append, List.append_assoc]

theorem messageStart_open {s : State} (h : messageStart s) : s.ended = false := by
  obtain ⟨-, -, -, -, hopen, -⟩ := h
  exact hopen

section
variable {s t : State} {ws : List Word} {rs : List Response}

/-- The bits of a message's symbols are those of its bytes, then those still pending (R117). -/
theorem WordsRun.pack_symbols (h : WordsRun s ws rs t) (hstart : messageStart s)
    (hstay : ∀ w ∈ ws, staysInMessage w) :
    pack 5 (messageSymbols ws) = pack 8 (messageBytes ws rs) ++ pendingBits t := by
  have hbits := h.moves_bits (messageStart_inv hstart) (messageStart_open hstart) hstay
  obtain ⟨-, hcnt, -⟩ := hstart
  have hnone : pendingBits s = [] := by rw [pendingBits, hcnt]; rfl
  rw [← hbits, hnone, List.nil_append]

/-- From the start of a message, the invariant holds of the open message after any of its words. -/
theorem WordsRun.message_open (h : WordsRun s ws rs t) (hstart : messageStart s)
    (hstay : ∀ w ∈ ws, staysInMessage w) : t.Inv ∧ t.ended = false :=
  h.keeps_open (messageStart_inv hstart) (messageStart_open hstart) hstay

theorem WordsRun.pending_lt (h : WordsRun s ws rs t) (hstart : messageStart s)
    (hstay : ∀ w ∈ ws, staysInMessage w) : t.cnt.toNat < 8 := by
  obtain ⟨⟨hcnt, -⟩, -⟩ := h.message_open hstart hstay
  omega

/-- The bytes of a message are its packed symbols, unpacked at 8; the pending bits are the remainder. -/
theorem WordsRun.messageBytes_eq (h : WordsRun s ws rs t) (hstart : messageStart s)
    (hstay : ∀ w ∈ ws, staysInMessage w) :
    messageBytes ws rs = unpack 8 (pack 5 (messageSymbols ws)) := by
  rw [h.pack_symbols hstart hstay]
  exact (unpack_pack (by norm_num) messageBytes_lt
    (by rw [pendingBits_length]; exact h.pending_lt hstart hstay)).symm

/-- Five bits per symbol: eight per byte and the pending ones. -/
theorem WordsRun.bit_count (h : WordsRun s ws rs t) (hstart : messageStart s)
    (hstay : ∀ w ∈ ws, staysInMessage w) :
    5 * (messageSymbols ws).length = 8 * (messageBytes ws rs).length + t.cnt.toNat := by
  have hbits := congrArg List.length (h.pack_symbols hstart hstay)
  rwa [List.length_append, pack_length, pack_length, pendingBits_length] at hbits

theorem WordsRun.cnt_eq (h : WordsRun s ws rs t) (hstart : messageStart s)
    (hstay : ∀ w ∈ ws, staysInMessage w) : t.cnt.toNat = 5 * (messageSymbols ws).length % 8 := by
  have hbits := h.bit_count hstart hstay
  have hlt := h.pending_lt hstart hstay
  omega

theorem WordsRun.responses_length (h : WordsRun s ws rs t) : rs.length = ws.length := by
  induction h with
  | nil => rfl
  | cons _ _ _ _ ih => rw [List.length_cons, List.length_cons, ih]

end

/-- Settles O54: the pushes move the bits of the symbols through ACC in order, eight to a byte. -/
theorem streamEquivalence : Obligations.StreamEquivalence := by
  intro s ws hstart hpending hstay
  obtain ⟨t, rs, hrun, ht, hwords⟩ := run_wordsRun ws [] (s.issue ws) (by simp [hpending])
  exact ⟨t, rs, hrun, ht, hwords.responses_eq, hwords.responses_length,
    hwords.messageBytes_eq hstart hstay⟩

/-- Settles O57: the bytes' bits and the pending bits are the symbols' bits, with no remainder. -/
theorem roundTripAtWidthFive : Obligations.RoundTripAtWidthFive := by
  intro s ws hstart hpending hstay
  obtain ⟨t, rs, hrun, -, hwords⟩ := run_wordsRun ws [] (s.issue ws) (by simp [hpending])
  refine ⟨t, rs, hrun, hwords.responses_eq, ?_⟩
  rw [← hwords.pack_symbols hstart hstay, ← List.append_nil (pack 5 _)]
  exact unpack_pack (by norm_num) messageSymbols_lt (by simp)

/-! ### The counts of a message (R118) -/

theorem exec_endMsg (s : State) :
    exec .endMsg s = .next (respond (lengthStatus s.incnt) s.bytecnt (endMessage s)) := rfl

/-- END of an open message moves CNT to DROP. -/
theorem end_drop {s : State} (hopen : s.ended = false) (st : Status) (d : Word) :
    (respond st d (endMessage s)).drop = s.cnt := by
  simp [hopen]

/-- After fewer than 2^32 symbols, BYTECNT is the number of whole bytes in their bits. -/
theorem WordsRun.bytecnt_eq {s t : State} {ws : List Word} {rs : List Response} (h : WordsRun s ws rs t)
    (hstart : messageStart s) (hstay : ∀ w ∈ ws, staysInMessage w)
    (hfew : (messageSymbols ws).length < 2 ^ 32) :
    t.bytecnt.toNat = 5 * (messageSymbols ws).length / 8 := by
  have hbits := h.bit_count hstart hstay
  have hlt := h.pending_lt hstart hstay
  obtain ⟨-, hbytecnt⟩ := h.counts (messageStart_inv hstart) (messageStart_open hstart) hstay
  obtain ⟨-, -, -, hbytecnt0, -⟩ := hstart
  have hbytes : (messageBytes ws rs).length < 2 ^ 32 := by omega
  rw [hbytecnt, hbytecnt0, BitVec.zero_add, BitVec.toNat_ofNat, Nat.mod_eq_of_lt hbytes]
  omega

@[simp] theorem decode_encode (i : Instr) : decode (encode i) = .ok i := encodeThenDecode i

theorem pushWords_stay (cs : List Byte) : ∀ w ∈ pushWords cs, staysInMessage w := by
  intro w hw
  obtain ⟨c, -, rfl⟩ := List.mem_map.1 hw
  simp [staysInMessage]

/-- The symbols of a pushed string are those of its characters in the alphabet. -/
theorem messageSymbols_pushWords (cs : List Byte) :
    messageSymbols (pushWords cs) = cs.filterMap fun c => (alpha c).map BitVec.toNat := by
  induction cs with
  | nil => rfl
  | cons c cs ih =>
    have hword : wordSymbols (encode (.pushc c)) = ((alpha c).map BitVec.toNat).toList := by
      simp [wordSymbols]
    rw [pushWords, List.map_cons, messageSymbols_cons, hword, List.filterMap_cons, ← ih, pushWords]
    cases alpha c <;> rfl

/-- Every character of the alphabet adds one symbol. -/
theorem messageSymbols_pushWords_length {cs : List Byte} (hcs : ∀ c ∈ cs, alpha c ≠ none) :
    (messageSymbols (pushWords cs)).length = cs.length := by
  rw [messageSymbols_pushWords, List.filterMap_length_eq_length]
  intro c hc
  rw [Option.isSome_map]
  exact Option.isSome_iff_ne_none.2 (hcs c hc)

/-- BYTECNT, CNT and END's DROP after the words of a message with fewer than 2^32 symbols. -/
theorem message_counts {s : State} {ws : List Word} (hstart : messageStart s) (hpending : s.pending = [])
    (hstay : ∀ w ∈ ws, staysInMessage w) (hfew : (messageSymbols ws).length < 2 ^ 32) :
    ∃ t u : State, Host.Core.run core ws.length (s.issue ws) = .next t ∧
      t.bytecnt.toNat = 5 * (messageSymbols ws).length / 8 ∧
      t.cnt.toNat = 5 * (messageSymbols ws).length % 8 ∧
      exec .endMsg t = .next u ∧ u.drop.toNat = 5 * (messageSymbols ws).length % 8 := by
  obtain ⟨t, rs, hrun, -, hwords⟩ := run_wordsRun ws [] (s.issue ws) (by simp [hpending])
  obtain ⟨-, hopen⟩ := hwords.message_open hstart hstay
  have hcnt := hwords.cnt_eq hstart hstay
  exact ⟨t, _, hrun, hwords.bytecnt_eq hstart hstay hfew, hcnt, exec_endMsg t,
    (congrArg BitVec.toNat (end_drop hopen _ _)).trans hcnt⟩

/-- Settles O55; a string in the alphabet has a symbol per character, and 5n is a multiple of 8 with n. -/
theorem messageCounts : Obligations.MessageCounts := by
  refine ⟨fun s ws hstart hpending hstay hfew => message_counts hstart hpending hstay hfew, ?_⟩
  intro s cs hstart hpending hcs hmultiple hfew
  have hlen := messageSymbols_pushWords_length hcs
  obtain ⟨t, u, hrun, hbytecnt, -, hexec, hdrop⟩ :=
    message_counts hstart hpending (pushWords_stay cs) (hlen.symm ▸ hfew)
  rw [pushWords, List.length_map] at hrun
  rw [hlen] at hbytecnt hdrop
  refine ⟨t, u, hrun, hlen, by omega, hexec, BitVec.eq_of_toNat_eq ?_⟩
  rw [hdrop, BitVec.toNat_zero]
  omega

/-! ### How a message's words are answered (R205) -/

/-- A PUSHC of a character absent from the alphabet (R114). -/
def refusesChar (w : Word) : Bool :=
  match decode w with
  | .ok (.pushc chr) => (alpha chr).isNone
  | _ => false

/-- A word that is no command. -/
def isIllegal (w : Word) : Bool :=
  match decode w with
  | .error _ => true
  | .ok _ => false

/-- The status of the response to a word of an open message. -/
inductive Answered (w : Word) (st : Status) : Prop where
  | accepted (sym : Symbol)
      (hword : decode w = .ok (.pushs sym) ∨ ∃ chr, decode w = .ok (.pushc chr) ∧ alpha chr = some sym)
      (hst : st = .ok)
  | refused (chr : Byte) (hword : decode w = .ok (.pushc chr)) (habsent : alpha chr = none)
      (hst : st = .char)
  | illegal (e : Illegal) (hdecode : decode w = .error e) (hst : st = .enc)
  | other (i : Instr) (hdecode : decode w = .ok i) (hitem : isItem w = false) (henc : st ≠ .enc)
      (hchar : st ≠ .char)

/-- A command never answers ENC, and CHAR only to a PUSHC. Unless it clears sticky bits, its response's
sticky bit is what it sets in STATUS (R202). -/
theorem execEffect_answer {s u : State} {i : Instr} (h : ExecEffect s i u) :
    ∃ r, u.responses = s.responses ++ [r] ∧ r.status ≠ .enc ∧
      (r.status = .char → ∃ chr, i = .pushc chr) ∧
      (i ≠ .clr → (∀ mask, i ≠ .eclr mask) → u.err = s.err ||| stickyBits r.status) := by
  have haccept : ∀ sym, ∃ d, (accept sym s).responses = s.responses ++ [⟨.ok, d⟩] ∧
      (accept sym s).err = s.err := by
    intro sym
    obtain ⟨acc, cnt, bytecnt, d, h⟩ := accept_writes sym s
    exact ⟨d, by rw [h]; rfl, by rw [h]; rfl⟩
  have hpoint : ∀ a, ∃ st d, (point a s).responses = s.responses ++ [⟨st, d⟩] ∧
      (point a s).err = s.err ||| stickyBits st ∧ (st = .ok ∨ st = .wrap) :=
    fun a => ⟨_, _, rfl, rfl, pointStatus_cases _ _⟩
  cases h with
  | pushsOpen sym | pushcOpen _ sym =>
    obtain ⟨d, hresponse, herr⟩ := haccept sym
    exact ⟨_, hresponse, by simp, by simp, by simp [herr]⟩
  | mapa | mapsInRange =>
    obtain ⟨st, d, hresponse, herr, rfl | rfl⟩ := hpoint _
    · exact ⟨_, hresponse, by simp, by simp, fun _ _ => herr⟩
    · exact ⟨_, hresponse, by simp, by simp, fun _ _ => herr⟩
  | endOk | endLen => exact ⟨_, congrArg (· ++ _) (endMessage_responses s), by simp, by simp, by simp⟩
  | _ => exact ⟨_, rfl, by simp, by simp, by simp⟩

/-- A legal word is a push of a message exactly if it is one of the two push commands. -/
theorem isPush_of_decode {w : Word} {i : Instr} (h : decode w = .ok i) : isPush w = isItem w := by
  have hop : opcodeOf (opField w) = some i.opcode := by
    rw [← (decode_ok_iff_encode w i).1 h, encode, opField_append]
    exact (opcodeOf_eq_some_iff _ _).2 rfl
  unfold isPush isItem
  rw [hop, h]
  cases i <;> rfl

theorem step_answered {s u : State} {w : Word} {rest : List HostAction} {r : Response}
    (hopen : s.ended = false) (hstay : staysInMessage w) (hpending : s.pending = .command w :: rest)
    (hstep : step s = .next u) (hresponse : u.responses = s.responses ++ [r]) : Answered w r.status := by
  cases step_openEffect hopen hstay hpending hstep with
  | accepted sym rest hword hu =>
    obtain ⟨acc, cnt, bytecnt, d, haccept⟩ := accept_writes sym { s with pending := rest }
    obtain rfl : r = ⟨.ok, d⟩ := by simpa [hu, haccept] using hresponse.symm
    exact .accepted sym hword rfl
  | refused chr rest hword habsent hu =>
    obtain rfl : r = ⟨.char, 0#32⟩ := by simpa [hu] using hresponse.symm
    exact .refused chr hword habsent rfl
  | other hpushs hpushc =>
    rcases step_effect hpending hstep with ⟨e, hdecode, rfl⟩ | ⟨i, hdecode, heff⟩
    · obtain rfl : r = ⟨.enc, 0#32⟩ := by simpa using hresponse.symm
      exact .illegal e hdecode rfl
    · obtain ⟨r', hresponse', henc, hchar, -⟩ := execEffect_answer heff
      obtain rfl : r = r' := by simpa using hresponse.symm.trans hresponse'
      refine .other i hdecode (isItem_eq_false hpushs hpushc) henc fun hst => ?_
      obtain ⟨chr, rfl⟩ := hchar hst
      exact hpushc chr hdecode

/-- Each word of an open message is answered by the cases of `Answered`. -/
theorem WordsRun.answered {s t : State} {ws : List Word} {rs : List Response} (h : WordsRun s ws rs t)
    (hopen : s.ended = false) (hstay : ∀ w ∈ ws, staysInMessage w) :
    List.Forall₂ (fun w r => Answered w r.status) ws rs := by
  induction h with
  | nil => exact .nil
  | cons hpending hstep hresponse _ ih =>
    obtain ⟨hw, hws⟩ := List.forall_mem_cons.1 hstay
    have heff := step_openEffect hopen hw hpending hstep
    exact .cons (step_answered hopen hw hpending hstep hresponse) (ih (heff.stays_open hopen) hws)

section
variable {w : Word} {st : Status}

theorem refusesChar_of_not_item (h : isItem w = false) : refusesChar w = false := by
  unfold isItem at h
  unfold refusesChar
  split at h <;> simp_all

/-- CHAR is answered to the refused characters. -/
theorem Answered.char_eq (h : Answered w st) : decide (st = .char) = refusesChar w := by
  cases h with
  | accepted sym hword hst =>
    rcases hword with hw | ⟨chr, hw, ha⟩
    · simp [refusesChar, hw, hst]
    · simp [refusesChar, hw, ha, hst]
  | refused chr hword habsent hst => simp [refusesChar, hword, habsent, hst]
  | illegal e hdecode hst => simp [refusesChar, hdecode, hst]
  | other i hdecode hitem henc hchar => rw [refusesChar_of_not_item hitem, decide_eq_false hchar]

/-- ENC is answered to the illegal words. -/
theorem Answered.enc_eq (h : Answered w st) : decide (st = .enc) = isIllegal w := by
  cases h with
  | accepted sym hword hst =>
    rcases hword with hw | ⟨chr, hw, ha⟩ <;> simp [isIllegal, hw, hst]
  | refused chr hword habsent hst => simp [isIllegal, hword, hst]
  | illegal e hdecode hst => simp [isIllegal, hdecode, hst]
  | other i hdecode hitem henc hchar => simp [isIllegal, hdecode, henc]

theorem isPush_of_item (h : isItem w = true) : isPush w = true := by
  rcases (isItem_iff w).1 h with ⟨_, hw⟩ | ⟨_, hw⟩ <;> rw [isPush_of_decode hw, h]

/-- Only a push is refused for its character. -/
theorem isPush_of_refusesChar (h : refusesChar w = true) : isPush w = true := by
  refine isPush_of_item ?_
  by_contra hitem
  rw [refusesChar_of_not_item (Bool.eq_false_iff.2 hitem)] at h
  cases h

/-- A push of an open message is answered OK and adds a symbol, or CHAR or ENC and adds none. -/
theorem Answered.of_push (h : Answered w st) (hpush : isPush w = true) :
    (st = .ok ∨ st = .char ∨ st = .enc) ∧ (wordSymbols w).length = if st = .ok then 1 else 0 := by
  cases h with
  | accepted sym hword hst => simp [hst, wordSymbols_of_accepted hword]
  | refused chr hword habsent hst => simp [hst, wordSymbols_of_refused hword habsent]
  | illegal e hdecode hst => simp [hst, wordSymbols, hdecode]
  | other i hdecode hitem =>
    rw [isPush_of_decode hdecode, hitem] at hpush
    cases hpush

end

/-! ### The host's reading (R120) -/

section
variable {ws : List Word} {rs : List Response} {p : Status → Bool} {q : Word → Bool}

/-- A property of the responses that the words decide. -/
theorem any_of_answered (h : List.Forall₂ (fun w r => Answered w r.status) ws rs)
    (hpq : ∀ w st, Answered w st → p st = q w) : (rs.any fun r => p r.status) = ws.any q := by
  induction h with
  | nil => rfl
  | cons hw _ ih => rw [List.any_cons, List.any_cons, ih, hpq _ _ hw]

/-- A property of the pushes' responses that the words decide. -/
theorem pushResponses_any_of_answered (h : List.Forall₂ (fun w r => Answered w r.status) ws rs)
    (hpq : ∀ w st, Answered w st → p st = q w) :
    ((pushResponses ws rs).any fun r => p r.status) = ws.any fun w => isPush w && q w := by
  induction h with
  | nil => rfl
  | @cons w r _ _ hw _ ih =>
    rw [pushResponses_cons, List.any_cons, ← ih, ← hpq _ _ hw]
    cases isPush w <;> rfl

/-- The pushes' responses are OK, CHAR or ENC. -/
theorem status_of_mem_pushResponses (h : List.Forall₂ (fun w r => Answered w r.status) ws rs) {r : Response}
    (hr : r ∈ pushResponses ws rs) : r.status = .ok ∨ r.status = .char ∨ r.status = .enc := by
  obtain ⟨⟨w, r⟩, hwr, rfl⟩ := List.mem_map.1 hr
  obtain ⟨hzip, hpush⟩ := List.mem_filter.1 hwr
  exact (((List.forall₂_iff_zip.1 h).2 hzip).of_push hpush).1

theorem pushResponses_any_char (h : List.Forall₂ (fun w r => Answered w r.status) ws rs) :
    ((pushResponses ws rs).any fun r => decide (r.status = .char)) = ws.any refusesChar := by
  rw [pushResponses_any_of_answered h fun _ _ hw => hw.char_eq]
  congr 1
  funext w
  cases hw : refusesChar w with
  | false => exact Bool.and_false _
  | true => rw [isPush_of_refusesChar hw, Bool.and_true]

theorem pushResponses_any_enc (h : List.Forall₂ (fun w r => Answered w r.status) ws rs) :
    ((pushResponses ws rs).any fun r => decide (r.status = .enc)) =
      ws.any fun w => isPush w && isIllegal w :=
  pushResponses_any_of_answered h fun _ _ hw => hw.enc_eq

/-- A message is valid exactly if END responds OK, no character was refused and no push was illegal. -/
theorem messageValid_iff_words (h : List.Forall₂ (fun w r => Answered w r.status) ws rs) (atEnd : Response) :
    messageValid ws rs atEnd = true ↔ atEnd.status = .ok ∧ ws.any refusesChar = false ∧
      (ws.any fun w => isPush w && isIllegal w) = false := by
  rw [messageValid_iff, ← pushResponses_any_char h, ← pushResponses_any_enc h]
  simp only [List.any_eq_false, decide_eq_true_eq]
  refine and_congr_right fun _ => ⟨fun hok => ?_, fun ⟨hchar, henc⟩ r hr => ?_⟩
  · exact ⟨fun r hr => by simp [hok r hr], fun r hr => by simp [hok r hr]⟩
  · exact (status_of_mem_pushResponses h hr).resolve_right (not_or.2 ⟨hchar r hr, henc r hr⟩)

/-- The host's reading, decided by END's status and the words. -/
theorem hostResult_of_answered (h : List.Forall₂ (fun w r => Answered w r.status) ws rs) {atEnd : Response}
    (hend : atEnd.status = .ok ∨ atEnd.status = .len) :
    hostResult ws rs atEnd =
      if atEnd.status = .len then .error (some .invalidInputLength)
      else if ws.any refusesChar = true then .error (some .unknownCharacter)
      else if (ws.any fun w => isPush w && isIllegal w) = true then .error none
      else .ok (messageBytes ws rs) := by
  have hvalid := messageValid_iff_words h atEnd
  unfold hostResult hostDiagnosis
  rw [pushResponses_any_char h]
  rcases hend with hend | hend
  · cases hchar : ws.any refusesChar with
    | true => simp [hvalid, hend, hchar]
    | false =>
      cases henc : ws.any fun w => isPush w && isIllegal w <;> simp [hvalid, hend, hchar, henc]
  · simp [hvalid, hend]

end

/-- With no character refused, every item of a message adds a symbol. -/
theorem messageSymbols_length {ws : List Word} (h : ws.any refusesChar = false) :
    (messageSymbols ws).length = (ws.filter isItem).length := by
  induction ws with
  | nil => rfl
  | cons w ws ih =>
    rw [List.any_cons, Bool.or_eq_false_iff] at h
    obtain ⟨hw, hws⟩ := h
    have hword : (wordSymbols w).length = ([w].filter isItem).length := by
      cases hitem : isItem w with
      | false => simp [wordSymbols_of_not_item hitem, hitem]
      | true =>
        rcases (isItem_iff w).1 hitem with ⟨sym, hdecode⟩ | ⟨chr, hdecode⟩
        · simp [wordSymbols, hdecode, hitem]
        · cases ha : alpha chr with
          | none => simp [refusesChar, hdecode, ha] at hw
          | some sym => simp [wordSymbols, hdecode, ha, hitem]
    rw [messageSymbols_cons, List.length_append, ih hws, hword, ← List.length_append,
      ← List.filter_append, List.singleton_append]

/-- With no push illegal, the pushes of a message are its items. -/
theorem filter_isPush {ws : List Word} (h : (ws.any fun w => isPush w && isIllegal w) = false) :
    ws.filter isPush = ws.filter isItem := by
  refine List.filter_congr fun w hw => ?_
  cases hdecode : decode w with
  | ok i => exact isPush_of_decode hdecode
  | error e =>
    have hpush := List.any_eq_false.1 h w hw
    simpa [isItem, isIllegal, hdecode] using hpush

theorem lengthStatus_len_iff (n : BitVec 32) :
    lengthStatus n = .len ↔ n.toNat = 0 ∨ n.toNat % 8 ≠ 0 := by
  unfold lengthStatus Config.lengthMultiple
  split <;> simp_all

/-! ### A message and its END -/

/-- A run goes on from where its words have left the machine. -/
theorem WordsRun.run_add {s t : State} {ws : List Word} {rs : List Response} (h : WordsRun s ws rs t)
    (n : Nat) : Host.Core.run core (ws.length + n) s = Host.Core.run core n t := by
  induction h with
  | nil => rw [List.length_nil, Nat.zero_add]
  | cons _ hstep _ _ ih => rw [List.length_cons, Nat.add_right_comm, run_succ hstep, ih]

/-- The state after END, the host's last action, at the end of a message in state `t`. -/
def afterEnd (t : State) : State :=
  respond (lengthStatus t.incnt) t.bytecnt (endMessage { t with pending := [] })

/-- The response of END at the end of a message in state `t`. -/
def endResponse (t : State) : Response := ⟨lengthStatus t.incnt, t.bytecnt⟩

theorem endResponse_status (t : State) : (endResponse t).status = .ok ∨ (endResponse t).status = .len :=
  lengthStatus_cases _

/-- The run of a message's words and its END. -/
theorem run_message (s : State) (ws : List Word) (hpending : s.pending = []) :
    ∃ t rs, WordsRun (s.issue (ws ++ [encode .endMsg])) ws rs t ∧
      Host.Core.run core (ws.length + 1) (s.issue (ws ++ [encode .endMsg])) = .next (afterEnd t) ∧
      (afterEnd t).responses = s.responses ++ rs ++ [endResponse t] := by
  obtain ⟨t, rs, -, ht, hwords⟩ := run_wordsRun ws [.command (encode .endMsg)]
    (s.issue (ws ++ [encode .endMsg])) (by simp [hpending])
  have hstep : step t = .next (afterEnd t) :=
    stepRunsDecodedCommand t _ [] .endMsg ht (decode_encode _)
  refine ⟨t, rs, hwords, (hwords.run_add 1).trans (run_succ hstep 0), ?_⟩
  exact congrArg (· ++ _) ((endMessage_responses _).trans hwords.responses_eq)

/-- The host's reading of a message, decided by its words: the number of items, a refused character, an
illegal push. -/
def messageReading (ws : List Word) : Except (Option SourceError) (List Nat) :=
  let items := (ws.filter isItem).length % 2 ^ 32
  if items = 0 ∨ items % 8 ≠ 0 then .error (some .invalidInputLength)
  else if ws.any refusesChar = true then .error (some .unknownCharacter)
  else if (ws.any fun w => isPush w && isIllegal w) = true then .error none
  else .ok (unpack 8 (pack 5 (messageSymbols ws)))

section
variable {s t : State} {ws : List Word} {rs : List Response}

/-- At the start of a message INCNT is 0, and it counts the items. -/
theorem WordsRun.incnt_eq (h : WordsRun s ws rs t) (hstart : messageStart s)
    (hstay : ∀ w ∈ ws, staysInMessage w) : t.incnt.toNat = (ws.filter isItem).length % 2 ^ 32 := by
  obtain ⟨hincnt, -⟩ := h.counts (messageStart_inv hstart) (messageStart_open hstart) hstay
  obtain ⟨-, -, hincnt0, -⟩ := hstart
  rw [hincnt, hincnt0, BitVec.zero_add, BitVec.toNat_ofNat]

/-- The host reads what the words decide: END's length check is the one of `messageReading`. -/
theorem WordsRun.hostResult_eq (h : WordsRun s ws rs t) (hstart : messageStart s)
    (hstay : ∀ w ∈ ws, staysInMessage w) : hostResult ws rs (endResponse t) = messageReading ws := by
  have hlen := lengthStatus_len_iff t.incnt
  rw [h.incnt_eq hstart hstay] at hlen
  have hanswered := h.answered (messageStart_open hstart) hstay
  rw [hostResult_of_answered hanswered (endResponse_status t), h.messageBytes_eq hstart hstay]
  simp only [endResponse, hlen]
  rfl

/-- In a valid message every push adds a symbol, and their bits fill whole bytes. -/
theorem WordsRun.of_valid (h : WordsRun s ws rs t) (hstart : messageStart s)
    (hstay : ∀ w ∈ ws, staysInMessage w) (hvalid : messageValid ws rs (endResponse t) = true) :
    (messageSymbols ws).length = (ws.filter isPush).length ∧ t.cnt = 0#4 := by
  have hcnt := h.cnt_eq hstart hstay
  have hitems := h.incnt_eq hstart hstay
  have hanswered := h.answered (messageStart_open hstart) hstay
  obtain ⟨hend, hchar, henc⟩ := (messageValid_iff_words hanswered _).1 hvalid
  obtain ⟨-, hmultiple⟩ := (lengthStatus_ok_iff t.incnt).1 hend
  have hsymbols := messageSymbols_length hchar
  refine ⟨hsymbols.trans (congrArg List.length (filter_isPush henc)).symm, BitVec.eq_of_toNat_eq ?_⟩
  rw [hcnt, BitVec.toNat_zero]
  omega

end

/-- Settles O59: the words decide which pushes fail, INCNT what END responds, and the bytes are those of
`streamEquivalence`; in a valid message the symbols are as many as the items, a multiple of 8. -/
theorem hostReadsEveryMessage : Obligations.HostReadsEveryMessage := by
  intro s ws hstart hpending hstay items refusedChar illegalPush
  obtain ⟨t, rs, hwords, hrun, hresponses⟩ := run_message s ws hpending
  obtain ⟨-, hopen⟩ := hwords.message_open hstart hstay
  refine ⟨afterEnd t, rs, endResponse t, hrun, hresponses, ?_, hwords.hostResult_eq hstart hstay,
    fun hvalid => ?_⟩
  · refine (hwords.answered (messageStart_open hstart) hstay).imp fun w r hw hpush => ?_
    obtain ⟨hst, hsymbols⟩ := hw.of_push hpush
    exact ⟨by rcases hst with h | h | h <;> simp [h], hsymbols⟩
  · obtain ⟨hsymbols, hcnt⟩ := hwords.of_valid hstart hstay hvalid
    exact ⟨hsymbols, (end_drop (s := { t with pending := [] }) hopen _ _).trans hcnt⟩

/-! ### A pushed string (R234) -/

/-- Every word of a pushed string is an item. -/
theorem pushWords_filter_isItem (cs : List Byte) : (pushWords cs).filter isItem = pushWords cs := by
  refine List.filter_eq_self.2 fun w hw => ?_
  obtain ⟨c, -, rfl⟩ := List.mem_map.1 hw
  exact (isItem_iff _).2 (.inr ⟨c, decode_encode _⟩)

/-- A pushed string is refused where a character is not in the alphabet. -/
theorem pushWords_any_refusesChar (cs : List Byte) :
    (pushWords cs).any refusesChar = !cs.all fun c => (alpha c).isSome := by
  rw [pushWords, List.any_map, List.all_eq_not_any_not, Bool.not_not]
  congr 1
  funext c
  simp [refusesChar]

theorem pushWords_any_isIllegal (cs : List Byte) :
    ((pushWords cs).any fun w => isPush w && isIllegal w) = false := by
  rw [pushWords, List.any_map, List.any_eq_false]
  simp [isIllegal]

/-- Settles O58, from the reading of every message: a string below 2^32 is its own number of items, no word
of it is illegal, and it is refused exactly where the source finds an unknown character. -/
theorem hostReadsTheSourcesResult : Obligations.HostReadsTheSourcesResult := by
  intro s cs hstart hpending hfew
  obtain ⟨t, rs, atEnd, hrun, hresponses, hpushes, hresult, -⟩ :=
    hostReadsEveryMessage s (pushWords cs) hstart hpending (pushWords_stay cs)
  have hlen : (pushWords cs).length = cs.length := List.length_map _
  have hitems : ((pushWords cs).filter isItem).length % 2 ^ 32 = cs.length := by
    rw [pushWords_filter_isItem, hlen, Nat.mod_eq_of_lt hfew]
  have hreading : messageReading (pushWords cs) = (sourceBytes cs).mapError some := by
    rw [messageReading, hitems, pushWords_any_refusesChar, pushWords_any_isIllegal, messageSymbols_pushWords,
      sourceBytes]
    split
    · rfl
    · cases cs.all fun c => (alpha c).isSome <;> rfl
  rw [hlen] at hrun
  exact ⟨t, rs, atEnd, hrun, hresponses, hpushes.length_eq.symm.trans hlen, hresult.trans hreading⟩

/-! ### STATUS after a message (R202) -/

theorem stickyBits_getLsbD_enc (st : Status) : (stickyBits st).getLsbD 0 = decide (st = .enc) := by
  cases st <;> rfl

theorem stickyBits_getLsbD_char (st : Status) : (stickyBits st).getLsbD 1 = decide (st = .char) := by
  cases st <;> rfl

/-- A word that clears no sticky bits sets its response's sticky bit and no other. -/
theorem step_sticks {s u : State} {w : Word} {rest : List HostAction} {r : Response}
    (hpending : s.pending = .command w :: rest) (hstep : step s = .next u)
    (hresponse : u.responses = s.responses ++ [r]) (hclr : decode w ≠ .ok .clr)
    (heclr : ∀ mask, decode w ≠ .ok (.eclr mask)) : u.err = s.err ||| stickyBits r.status := by
  rcases step_effect hpending hstep with ⟨e, -, rfl⟩ | ⟨i, hdecode, heff⟩
  · obtain rfl : r = ⟨.enc, 0#32⟩ := by simpa using hresponse.symm
    rfl
  · obtain ⟨r', hresponse', -, -, herr⟩ := execEffect_answer heff
    obtain rfl : r = r' := by simpa using hresponse.symm.trans hresponse'
    exact herr (fun h => hclr (h ▸ hdecode)) fun mask h => heclr mask (h ▸ hdecode)

/-- Over words that clear no sticky bits, a sticky bit is set exactly if a response sets it (R202). -/
theorem WordsRun.sticks {s t : State} {ws : List Word} {rs : List Response} (h : WordsRun s ws rs t)
    (hclr : ∀ w ∈ ws, decode w ≠ .ok .clr) (heclr : ∀ w ∈ ws, ∀ mask, decode w ≠ .ok (.eclr mask)) (k : Nat) :
    t.err.getLsbD k = (s.err.getLsbD k || rs.any fun r => (stickyBits r.status).getLsbD k) := by
  induction h with
  | nil => exact (Bool.or_false _).symm
  | cons hpending hstep hresponse _ ih =>
    obtain ⟨hclr, hclrs⟩ := List.forall_mem_cons.1 hclr
    obtain ⟨heclr, heclrs⟩ := List.forall_mem_cons.1 heclr
    rw [ih hclrs heclrs, step_sticks hpending hstep hresponse hclr heclr, BitVec.getLsbD_or, List.any_cons,
      Bool.or_assoc]

/-- END sets neither bit 0 nor bit 1 of STATUS. -/
theorem afterEnd_err_getLsbD (t : State) {k : Nat} (hk : k < 2) :
    (afterEnd t).err.getLsbD k = t.err.getLsbD k := by
  have herr : (afterEnd t).err = t.err ||| stickyBits (lengthStatus t.incnt) :=
    congrArg (· ||| _) (endMessage_err _)
  rw [herr, BitVec.getLsbD_or]
  have hbit : (stickyBits (lengthStatus t.incnt)).getLsbD k = false := by
    rcases lengthStatus_cases t.incnt with h | h <;> rw [h] <;> interval_cases k <;> rfl
  rw [hbit, Bool.or_false]

/-- Settles O60: over a message that clears no sticky bits, bit 1 of STATUS is set exactly if a character was
refused and bit 0 exactly if a word was illegal. -/
theorem statusShowsInvalidMessages : Obligations.StatusShowsInvalidMessages := by
  intro s ws hstart herr0 hpending hstay heclr
  obtain ⟨t, rs, hwords, hrun, hresponses⟩ := run_message s ws hpending
  have hanswered := hwords.answered (messageStart_open hstart) hstay
  have hvalid := messageValid_iff_words hanswered (endResponse t)
  have hsticks : ∀ k < 2, (statusWord (afterEnd t)).getLsbD k =
      rs.any fun r => (stickyBits r.status).getLsbD k := by
    intro k hk
    have hstatus : (statusWord (afterEnd t)).getLsbD k = (afterEnd t).err.getLsbD k := by
      rw [statusWord_getLsbD, if_pos (by omega)]
    rw [hstatus, afterEnd_err_getLsbD t hk, hwords.sticks (fun w hw => (hstay w hw).1) heclr, issue_err, herr0,
      BitVec.getLsbD_zero, Bool.false_or]
  have hbit0 : (statusWord (afterEnd t)).getLsbD 0 = rs.any fun r => decide (r.status = .enc) := by
    simp only [hsticks 0 (by omega), stickyBits_getLsbD_enc]
  have hbit1 : (statusWord (afterEnd t)).getLsbD 1 = ws.any refusesChar := by
    simp only [hsticks 1 (by omega), stickyBits_getLsbD_char]
    exact any_of_answered hanswered fun _ _ hw => hw.char_eq
  refine ⟨afterEnd t, rs, endResponse t, statusWord (afterEnd t), hrun, hresponses,
    hwords.responses_length, exec_rdreg_reads rfl, ?_, ?_, ?_, ?_, ?_⟩
  · rw [hbit1, ← pushResponses_any_char hanswered]
    simp
  · intro hchar
    rw [Bool.eq_false_iff, Ne, hvalid, ← hbit1, hchar]
    simp
  · rw [hbit0]
    simp
  · intro hstatus
    simp only [statusValid, Bool.and_eq_true, decide_eq_true_eq, Bool.not_eq_true'] at hstatus
    obtain ⟨⟨hend, hchar⟩, henc⟩ := hstatus
    refine hvalid.2 ⟨hend, hbit1 ▸ hchar, ?_⟩
    rw [hbit0, any_of_answered hanswered fun _ _ hw => hw.enc_eq, List.any_eq_false] at henc
    exact List.any_eq_false.2 fun w hw => by simp [henc w hw]
  · rw [statusDiagnosis, hostDiagnosis, hbit1, pushResponses_any_char hanswered]

/-! ### A command's word and its illegal neighbours (R81, R84) -/

theorem wordRuns_encode (i : Instr) : wordRuns (encode i) i := fun s rest hpending =>
  stepRunsDecodedCommand s _ rest i hpending (decode_encode i)

/-- The word of a command with one operand: its opcode's word `base` with the operand in the low bits. -/
theorem wordRuns_field (op : Opcode) {i : Instr} {n : Nat} {base : Word} (x : BitVec n) (hop : i.opcode = op)
    (hbase : op.code ++ 0#28 = base) (hbits : i.operandBits.toNat = x.toNat) :
    wordRuns (base ||| x.setWidth 32) i := by
  have hword : encode i = base ||| x.setWidth 32 := by
    rw [encode, code_append_eq_or_ofInt i.opcode (congrArg Nat.cast hbits), BitVec.ofInt_natCast,
      BitVec.ofNat_toNat, hop, hbase]
  exact hword ▸ wordRuns_encode i

/-- Under each opcode, a word with a bit set above its format's operand fields is illegal. -/
theorem wordIllegal_of_reserved (op : Opcode) {len : Nat} (hlen : fieldBits op.format + len = 28) {w : Word}
    (hop : opField w = op.code) (hbits : w.extractLsb' (fieldBits op.format) len ≠ 0#len) :
    wordIllegal w := by
  cases hdecode : decode w with
  | error e => exact wordIllegal_of_decode_error hdecode
  | ok i =>
    refine absurd (BitVec.eq_of_toNat_eq ?_) hbits
    obtain ⟨op', hlegal, -⟩ := (decode_ok_iff_legalFor w i).1 hdecode
    obtain rfl := code_injective (hlegal.opField_eq.symm.trans hop)
    have hword := (legalFor_iff_toNat op' w).1 hlegal
    have hlow := Nat.mod_lt w.toNat (Nat.two_pow_pos (fieldBits op'.format))
    have hsplit : 2 ^ 28 = 2 ^ len * 2 ^ fieldBits op'.format := by rw [← pow_add, Nat.add_comm, hlen]
    rw [BitVec.extractLsb'_toNat, Nat.shiftRight_eq_div_pow, BitVec.toNat_zero, hword, hsplit, ← mul_assoc,
      Nat.add_comm, Nat.add_mul_div_right _ _ (by positivity), Nat.div_eq_of_lt hlow, Nat.zero_add,
      Nat.mul_mod_left]

/-! ### The re-packer's commands -/

/-- Settles O21. -/
theorem clrCommand : Obligations.ClrCommand :=
  ⟨wordRuns_encode .clr, fun _ => wordIllegal_of_reserved .clr rfl, fun s =>
    congrArg Host.Outcome.next (respond_ok_eq 0#32 (clearMessage s))⟩

/-- Settles O22. -/
theorem pushsCommand : Obligations.PushsCommand :=
  ⟨fun sym => wordRuns_field .pushs sym rfl (by decide) (toNat_zero_append 23 sym),
    fun _ => wordIllegal_of_reserved .pushs rfl,
    fun sym _ => ⟨exec_pushs_ended sym, exec_pushs_open sym⟩⟩

/-- Settles O23. -/
theorem pushcCommand : Obligations.PushcCommand :=
  ⟨fun chr => wordRuns_field .pushc chr rfl (by decide) (toNat_zero_append 20 chr),
    fun _ => wordIllegal_of_reserved .pushc rfl,
    fun chr _ => ⟨exec_pushc_ended chr, exec_pushc_absent, fun _ => exec_pushc_open⟩⟩

/-- CNT and ACC hold `n` at most 7 bits of value `v` in full. -/
theorem toNat_written {n v : Nat} (hn : n ≤ 7) (hv : v < 2 ^ n) :
    (BitVec.ofNat 12 v).toNat = v ∧ (BitVec.ofNat 4 n).toNat = n := by
  have hv12 : v < 2 ^ 12 := hv.trans_le (Nat.pow_le_pow_right (by omega) (by omega))
  exact ⟨(BitVec.toNat_ofNat _ _).trans (Nat.mod_eq_of_lt hv12),
    (BitVec.toNat_ofNat _ _).trans (Nat.mod_eq_of_lt (by omega))⟩

/-- Settles O24: with 3 or more bits pending ACCEPT emits, with fewer it holds them all; the invariant bounds
the results within their registers. -/
theorem acceptProcedure : Obligations.AcceptProcedure := by
  intro s sym i hs hopen hi
  have hexec := exec_push_accepts hopen hi
  have happended := appended_lt hs sym
  have hcnt : s.cnt.toNat ≤ 7 := hs.1
  refine ⟨accept sym s, ?_, fun h => ?_, fun h => ?_⟩
  · obtain ⟨acc, cnt, bytecnt, d, haccept⟩ := accept_writes sym s
    rw [haccept]
    exact BitVec.toNat_add _ _
  · have h3 : 3 ≤ s.cnt.toNat := by omega
    have hrest := Nat.mod_lt (s.acc.toNat * 32 + sym.toNat) (Nat.two_pow_pos (s.cnt.toNat - 3))
    obtain ⟨hacc, hcnt'⟩ := toNat_written (by omega) hrest
    rw [Nat.shiftRight_eq_div_pow, hexec, accept_emits sym s h3]
    exact ⟨firstBits_lt hs sym h3, hacc, hcnt', BitVec.toNat_add _ _, rfl⟩
  · obtain ⟨hacc, hcnt'⟩ := toNat_written (by omega) happended
    rw [hexec, accept_holds sym s (by omega)]
    exact ⟨hacc, hcnt', rfl⟩

/-- Settles O26: `endMessage` is END's effect on the registers, and the length check answers LEN or OK. -/
theorem endCommand : Obligations.EndCommand := by
  refine ⟨wordRuns_encode .endMsg, fun _ => wordIllegal_of_reserved .endMsg rfl, fun s => ?_⟩
  intro badLength u
  have hlen : lengthStatus s.incnt = .len ↔ badLength := lengthStatus_len_iff s.incnt
  have hu : endMessage s = u := rfl
  have herr : u.err = s.err := endMessage_err s
  rw [exec_endMsg, hu]
  refine ⟨fun hbad => ?_, fun hgood => ?_⟩
  · rw [hlen.2 hbad, respond_eq_reply, stickyBits_len, herr]
  · rw [(lengthStatus_cases s.incnt).resolve_right (mt hlen.1 hgood), respond_ok_eq]

end Sys2Proof.Proofs

namespace Sys2Proof.Proofs
open Sys2Proof.Machine

/-! ### The mapper's configuration commands -/

/-- Settles O28. -/
theorem setcxCommand : Obligations.SetcxCommand :=
  ⟨fun val => wordRuns_field .setcx val rfl (by decide) (toNat_zero_append 12 val),
    fun _ => wordIllegal_of_reserved .setcx rfl,
    fun val s => congrArg Host.Outcome.next (respond_ok_eq 0#32 { s with cx := val })⟩

/-- Settles O29. -/
theorem setcyCommand : Obligations.SetcyCommand :=
  ⟨fun val => wordRuns_field .setcy val rfl (by decide) (toNat_zero_append 12 val),
    fun _ => wordIllegal_of_reserved .setcy rfl,
    fun val s => congrArg Host.Outcome.next (respond_ok_eq 0#32 { s with cy := val })⟩

/-- Settles O30. -/
theorem setrCommand : Obligations.SetrCommand :=
  ⟨fun rad => wordRuns_field .setr rad rfl (by decide) (toNat_zero_append 13 rad),
    fun _ => wordIllegal_of_reserved .setr rfl,
    fun rad s => congrArg Host.Outcome.next (respond_ok_eq 0#32 { s with r := rad })⟩

/-- Settles O31. -/
theorem setnCommand : Obligations.SetnCommand :=
  ⟨fun nf => wordRuns_field .setn nf rfl (by decide) (toNat_zero_append 4 nf),
    fun _ => wordIllegal_of_reserved .setn rfl,
    fun nf s => congrArg Host.Outcome.next (respond_ok_eq 0#32 { s with nframes := nf })⟩

/-! ### POINT (R148) -/

theorem coordinate_eq_shift (c : BitVec 16) (q : Int) (r : BitVec 15) :
    coordinate c q r = c.toInt + (q * (r.toNat : Int) + 8192) >>> (14 : Nat) := by
  rw [coordinate, Int.shiftRight_eq_div_pow]
  rfl

/-- A coordinate leaves the 16-bit range (R148). -/
def outsideRange (xs ys : Int) : Prop := xs < -32768 ∨ xs > 32767 ∨ ys < -32768 ∨ ys > 32767

theorem pointStatus_ok_iff_not_outside (xs ys : Int) : pointStatus xs ys = .ok ↔ ¬ outsideRange xs ys := by
  rw [pointStatus_ok_iff, outsideRange]
  omega

/-- The response of POINT, which CX, CY and R decide with the angle. -/
def pointResponse (a : Angle) (s : State) : Response :=
  ⟨pointStatus (coordinate s.cx (cosq a) s.r) (coordinate s.cy (sinq a) s.r),
    pointData (coordinate s.cx (cosq a) s.r) (coordinate s.cy (sinq a) s.r)⟩

theorem exec_mapa (a : Angle) (s : State) : exec (.mapa a) s = .next (point a s) := rfl

@[simp] theorem point_responses (a : Angle) (s : State) :
    (point a s).responses = s.responses ++ [pointResponse a s] := rfl

@[simp] theorem point_lastang (a : Angle) (s : State) : (point a s).lastang = a := rfl

/-- POINT by its two statuses, the coordinates written with R148's shift. -/
theorem point_effect (a : Angle) (s : State) :
    let xs : Int := s.cx.toInt + (cosq a * (s.r.toNat : Int) + 8192) >>> (14 : Nat)
    let ys : Int := s.cy.toInt + (sinq a * (s.r.toNat : Int) + 8192) >>> (14 : Nat)
    (outsideRange xs ys → point a s =
      { s with lastang := a, err := s.err ||| 0b100000#6 }.reply .wrap (pointData xs ys)) ∧
    (¬ outsideRange xs ys → point a s = { s with lastang := a }.reply .ok (pointData xs ys)) := by
  rw [← coordinate_eq_shift, ← coordinate_eq_shift]
  intro xs ys
  rw [← pointStatus_ok_iff_not_outside]
  rcases point_cases a s with ⟨hstatus, hpoint⟩ | ⟨hstatus, hpoint⟩
  · exact ⟨fun hout => absurd hout ((pointStatus_ok_iff_not_outside xs ys).1 hstatus), fun _ => hpoint⟩
  · exact ⟨fun _ => hpoint, fun hok => absurd (hstatus.symm.trans hok) (by decide)⟩

/-- Settles O32: MAPA is POINT at its operand. -/
theorem mapaCommand : Obligations.MapaCommand :=
  ⟨fun ang => wordRuns_field .mapa ang rfl (by decide) (toNat_zero_append 12 ang),
    fun _ => wordIllegal_of_reserved .mapa rfl,
    fun a s => (point_effect a s).imp (fun h hout => congrArg Host.Outcome.next (h hout))
      (fun h hin => congrArg Host.Outcome.next (h hin))⟩

theorem pointResponse_congr {s s' : State} (a : Angle) (hcx : s'.cx = s.cx) (hcy : s'.cy = s.cy)
    (hr : s'.r = s.r) : pointResponse a s' = pointResponse a s := by
  rw [pointResponse, pointResponse, hcx, hcy, hr]

/-- Settles O39. -/
theorem pointReadsOnlyTheCircle : Obligations.PointReadsOnlyTheCircle := fun s s' a hcx hcy hr =>
  ⟨point a s, point a s', pointResponse a s, exec_mapa a s, exec_mapa a s', point_responses a s,
    (point_responses a s').trans (by rw [pointResponse_congr a hcx hcy hr])⟩

/-! ### The angle MAPS maps (R145, R149) -/

/-- The base angles of R36 as numbers. -/
def baseUnits : List Nat := [45056, 53248, 61440, 4096, 12288, 20480, 28672, 36864]

theorem toNat_baseAngle (slot : BitVec 3) : (baseAngle slot).toNat = baseUnits.getD slot.toNat 0 := by
  revert slot
  decide

/-- The slot's angle is its base angle less the frame's offset, modulo a full turn. -/
theorem slotAngle_eq_sub (slot : BitVec 3) (frm nframes : BitVec 24) :
    slotAngle slot frm nframes = baseAngle slot - BitVec.ofNat 16 (rotationOffset frm nframes) := by
  apply BitVec.eq_of_toNat_eq
  rw [slotAngle, BitVec.toNat_ofInt, BitVec.toNat_sub, BitVec.toNat_ofNat]
  have := (baseAngle slot).isLt
  omega

section
variable {frm nframes : BitVec 24} (h : frm.toNat < nframes.toNat)
include h

/-- The offset is at most the frames' share of 45 degrees (R154). -/
theorem rotationOffset_mul_le : rotationOffset frm nframes * nframes.toNat ≤ 8192 * (nframes.toNat - 1) :=
  calc rotationOffset frm nframes * nframes.toNat ≤ frm.toNat * 8192 := Nat.div_mul_le_self _ _
    _ ≤ 8192 * (nframes.toNat - 1) := by omega

theorem rotationOffset_lt : rotationOffset frm nframes < 8192 :=
  Nat.div_lt_of_lt_mul (Nat.mul_lt_mul_of_pos_right h (by decide))

/-- Below a full turn, the offset may be taken from the base angle plus a full turn. -/
theorem slotAngle_eq_ofNat (slot : BitVec 3) : slotAngle slot frm nframes =
    BitVec.ofNat 16 (baseUnits.getD slot.toNat 0 + 65536 - frm.toNat * 8192 / nframes.toNat) := by
  have hoff := rotationOffset_lt h
  apply BitVec.eq_of_toNat_eq
  rw [slotAngle_eq_sub, BitVec.toNat_sub, BitVec.toNat_ofNat, BitVec.toNat_ofNat, toNat_baseAngle,
    ← rotationOffset_eq]
  omega

end

theorem exec_maps_accepted {s : State} {frm : BitVec 24} (h : frm.toNat < s.nframes.toNat) (slot : BitVec 3) :
    exec (.maps slot frm) s = .next (point (slotAngle slot frm s.nframes) s) :=
  exec_maps_inRange slot ((frameInRange_iff _ _).2 h)

/-- MAPS's operand fields in the word, the slot above the frame. -/
theorem wordRuns_maps (slot : BitVec 3) (frm : BitVec 24) :
    wordRuns (0xA0000000#32 ||| slot.setWidth 32 <<< 24 ||| frm.setWidth 32) (.maps slot frm) := by
  have hword := encode_maps_ofNat (slot := slot.toNat) (f := frm.toNat) (Nat.le_of_lt_succ slot.isLt)
    (Nat.le_of_lt_succ frm.isLt)
  simp only [BitVec.ofNat_toNat, BitVec.setWidth_eq] at hword
  exact hword ▸ wordRuns_encode (.maps slot frm)

/-- Settles O33: an accepted frame is POINT at the slot's angle. -/
theorem mapsCommand : Obligations.MapsCommand := by
  refine ⟨wordRuns_maps, fun _ => wordIllegal_of_reserved .maps rfl, fun slot frm s => ?_⟩
  refine ⟨fun hout => ?_, fun hin hout => ?_, fun hin hfits => ?_⟩
  · refine exec_maps_refused slot ?_
    rw [Bool.eq_false_iff, Ne, frameInRange_iff]
    omega
  · rw [exec_maps_accepted hin, slotAngle_eq_ofNat hin]
    exact congrArg _ ((point_effect _ s).1 hout)
  · rw [exec_maps_accepted hin, slotAngle_eq_ofNat hin]
    exact congrArg _ ((point_effect _ s).2 hfits)

/-- Settles O38: LASTANG is the base angle less the offset. -/
theorem rotationBelow45Degrees : Obligations.RotationBelow45Degrees := by
  intro s t slot frm hin hexec
  rw [exec_maps_accepted hin] at hexec
  obtain rfl := Host.Outcome.next.inj hexec
  have hoff := rotationOffset_lt hin
  have hdiff : (baseAngle slot - slotAngle slot frm s.nframes).toNat = rotationOffset frm s.nframes := by
    rw [slotAngle_eq_sub, sub_sub_cancel, BitVec.toNat_ofNat, Nat.mod_eq_of_lt (by omega)]
  rw [point_lastang, hdiff]
  exact ⟨rotationOffset_mul_le hin, hoff⟩

/-! ### The points of a byte (R152) -/

/-- Slots from 0 to 7, as the table numbers them. -/
theorem slotAngle_ofNat {frm nframes : BitVec 24} (h : frm.toNat < nframes.toNat) {i : Nat} (hi : i < 8) :
    slotAngle (BitVec.ofNat 3 i) frm nframes =
      BitVec.ofNat 16 (baseUnits.getD i 0 + 65536 - frm.toNat * 8192 / nframes.toNat) := by
  rw [slotAngle_eq_ofNat h, BitVec.toNat_ofNat, Nat.mod_eq_of_lt hi]

/-- The MAPS of a list of slots at one frame give the slots' points in the list's order: none of them
changes the circle or NFRAMES. -/
theorem WordsRun.maps_responses {s u t : State} {f : BitVec 24} {slots : List Nat} {rs : List Response}
    (hf : f.toNat < s.nframes.toNat)
    (h : WordsRun u (slots.map fun i => encode (.maps (BitVec.ofNat 3 i) f)) rs t)
    (hcx : u.cx = s.cx) (hcy : u.cy = s.cy) (hr : u.r = s.r) (hn : u.nframes = s.nframes) :
    rs = slots.map fun i => pointResponse (slotAngle (BitVec.ofNat 3 i) f s.nframes) s := by
  induction slots generalizing u rs with
  | nil => cases h; rfl
  | cons i slots ih =>
    obtain _ | @⟨_, v, _, _, _, r, rs, rest, hpending, hstep, hresponse, hrun⟩ := h
    rw [stepRunsDecodedCommand u _ rest _ hpending (decode_encode _),
      exec_maps_accepted (s := { u with pending := rest }) (hn ▸ hf)] at hstep
    obtain rfl := Host.Outcome.next.inj hstep
    have hpoint : [r] = [pointResponse (slotAngle (BitVec.ofNat 3 i) f u.nframes) u] :=
      List.append_cancel_left hresponse.symm
    rw [List.map_cons, ← ih hrun hcx hcy hr hn, ← pointResponse_congr _ hcx hcy hr, ← hn,
      List.singleton_inj.1 hpoint]

/-- Settles O42: each MAPS of the byte is answered with the point of its slot. -/
theorem framePointsInSlotOrder : Obligations.FramePointsInSlotOrder := by
  intro s b f hf hpending slots
  have hissued : (s.issue (frameWords b f)).pending = (frameWords b f).map HostAction.command ++ [] := by
    rw [issue_pending, hpending, List.append_nil, List.nil_append]
  obtain ⟨t, rs, hrun, hdone, hwords⟩ := run_wordsRun _ _ _ hissued
  have hlength : (frameWords b f).length = slots.length := List.length_map _
  obtain rfl := WordsRun.maps_responses (s := s) hf hwords rfl rfl rfl rfl
  refine ⟨t, _, hlength ▸ hrun, hdone, hwords.responses_eq, ?_⟩
  rw [List.forall₂_map_right_iff]
  refine List.forall₂_same.2 fun i hi => ?_
  have hi8 : i < 8 := List.mem_range.1 (List.mem_of_mem_filter hi)
  rw [slotAngle_ofNat hf hi8]
  exact ⟨_, exec_mapa _ s, point_responses _ s⟩

/-! ### The cosine series of R147 against the real cosine -/

/-- The first ten terms of the cosine series. -/
noncomputable def cosPoly (x : ℝ) : ℝ :=
  ∑ n ∈ Finset.range 10, (-1) ^ n * (x ^ (2 * n) / (2 * n).factorial)

theorem mul_I_pow_even (x : ℝ) (n : ℕ) :
    (x * Complex.I : ℂ) ^ (2 * n) = ((-1) ^ n * x ^ (2 * n) : ℝ) := by
  rw [mul_pow, pow_mul Complex.I, Complex.I_sq]
  push_cast
  ring

/-- The even powers of `x * I` are real and the odd ones imaginary. -/
theorem re_expSum (x : ℝ) (k : ℕ) :
    (∑ m ∈ Finset.range (2 * k), (x * Complex.I) ^ m / (m.factorial : ℂ)).re =
      ∑ n ∈ Finset.range k, (-1) ^ n * (x ^ (2 * n) / (2 * n).factorial) := by
  induction k with
  | zero => rfl
  | succ k ih =>
    have heven : ((x * Complex.I) ^ (2 * k) / ((2 * k).factorial : ℂ)).re =
        (-1) ^ k * (x ^ (2 * k) / (2 * k).factorial) := by
      rw [mul_I_pow_even, Complex.div_natCast_re, Complex.ofReal_re, mul_div_assoc]
    have hodd : ((x * Complex.I) ^ (2 * k + 1) / ((2 * k + 1).factorial : ℂ)).re = 0 := by
      rw [pow_succ, mul_I_pow_even, Complex.div_natCast_re, Complex.re_ofReal_mul, Complex.re_ofReal_mul,
        Complex.I_re, mul_zero, mul_zero, zero_div]
    rw [Nat.mul_succ, Finset.sum_range_succ, Finset.sum_range_succ, Complex.add_re, Complex.add_re, ih, heven,
      hodd, add_zero, Finset.sum_range_succ]

/-- Up to 2 radians, ten terms leave at most twice the next power. -/
theorem abs_cos_sub_cosPoly_le {x : ℝ} (hx : |x| ≤ 2) :
    |Real.cos x - cosPoly x| ≤ |x| ^ 20 / (20).factorial * 2 := by
  have hnorm : ‖(x * Complex.I : ℂ)‖ = |x| := by simp
  have hbound := Complex.exp_bound' (x := x * Complex.I) (n := 20) (by rw [hnorm]; push_cast; linarith)
  rw [← Complex.exp_ofReal_mul_I_re, cosPoly, ← re_expSum, ← Complex.sub_re, ← hnorm]
  exact (Complex.abs_re_le_norm _).trans hbound

/-- A term of the model's series at `x ^ 2 = u / v`, over the common denominator. -/
theorem cosTerm_div {u v n : Nat} (hn : n < 10) (hv : v ≠ 0) {x : ℝ} (hx : x ^ 2 * v = u) :
    (cosTerm u v n : ℝ) / (fact18 * v ^ 9 : ℕ) = x ^ (2 * n) / (2 * n).factorial := by
  have hcoeff : (cosCoeff n : ℝ) * (2 * n).factorial = fact18 := by
    exact_mod_cast (cosCoeff_mul_factorial n hn).trans fact18_eq_factorial.symm
  have hpow : (v : ℝ) ^ 9 = v ^ n * v ^ (9 - n) := by rw [← pow_add]; congr 1; omega
  have hv' : (v : ℝ) ≠ 0 := by exact_mod_cast hv
  have hfact : (fact18 : ℝ) ≠ 0 := by norm_num [fact18]
  push_cast
  rw [div_eq_div_iff (by positivity) (by positivity), cosTerm]
  push_cast
  rw [hpow, ← hcoeff, ← hx, mul_pow, pow_mul]
  ring

/-- The model's series is the ten terms at `x ^ 2 = u / v`. -/
theorem series_eq_cosPoly {u v : Nat} (hv : v ≠ 0) {x : ℝ} (hx : x ^ 2 * v = u) :
    (((cosEven u v : Int) - (cosOdd u v : Int) : Int) : ℝ) / (fact18 * v ^ 9 : ℕ) = cosPoly x := by
  have hsum : cosPoly x =
      ∑ n ∈ Finset.range 10, (-1) ^ n * ((cosTerm u v n : ℝ) / (fact18 * v ^ 9 : ℕ)) :=
    Finset.sum_congr rfl fun n hn => by rw [cosTerm_div (Finset.mem_range.1 hn) hv hx]
  rw [hsum, cosEven, cosOdd]
  simp only [Finset.sum_range_succ, Finset.sum_range_zero]
  push_cast
  ring

/-! ### COSQ of the first quadrant -/

/-- The square of the 32768 units of a half turn in the model's rational angles. -/
def halfTurnSq : Nat := (32768 * piDen) ^ 2

/-- The numerator `cosQuarter` rounds: 16384 times the series at `k` units. -/
def seriesNum (k : Nat) : Int :=
  16384 * ((cosEven ((k * piNum) ^ 2) halfTurnSq : Int) - (cosOdd ((k * piNum) ^ 2) halfTurnSq : Int))

/-- The denominator of `seriesNum`. -/
def seriesDen : Nat := fact18 * halfTurnSq ^ 9

theorem cosQuarter_eq_nearest (k : Nat) : cosQuarter k = nearest (seriesNum k) seriesDen := rfl

theorem seriesDen_pos : 0 < seriesDen := by
  norm_num [seriesDen, halfTurnSq, fact18, piDen]

theorem two_mul_seriesDen_pos : (0 : ℝ) < 2 * seriesDen := by
  exact_mod_cast Nat.mul_pos two_pos seriesDen_pos

/-- The angle of `x` binary-angle units in radians (R146). -/
noncomputable def radians (x : ℝ) : ℝ := 2 * Real.pi * x / 65536

/-- The rational angle of `k` units that stands for `radians k` in the model. -/
noncomputable def modelAngle (k : Nat) : ℝ := k * piNum / (32768 * piDen)

theorem seriesNum_div (k : Nat) : (seriesNum k : ℝ) / seriesDen = 16384 * cosPoly (modelAngle k) := by
  have hpos : halfTurnSq ≠ 0 := by norm_num [halfTurnSq, piDen]
  have hsq : modelAngle k ^ 2 * halfTurnSq = ((k * piNum) ^ 2 : ℕ) := by
    have hden : (piDen : ℝ) ≠ 0 := by norm_num [piDen]
    rw [modelAngle, halfTurnSq]
    push_cast
    field_simp
  rw [← series_eq_cosPoly hpos hsq, seriesNum, seriesDen, Int.cast_mul, mul_div_assoc]
  norm_num

section
variable {k : Nat} (hk : k ≤ 16384)
include hk

theorem abs_radians_sub_modelAngle_le : |radians k - modelAngle k| ≤ 1 / 10 ^ 20 := by
  have hk' : (k : ℝ) ≤ 16384 := by exact_mod_cast hk
  have hdiff : radians k - modelAngle k = k / 32768 * (Real.pi - piNum / piDen) := by
    rw [radians, modelAngle, piDen]; push_cast; ring
  have hlo := Real.pi_gt_d20
  have hhi := Real.pi_lt_d20
  have hpi : |Real.pi - piNum / piDen| ≤ 1 / 10 ^ 20 := by
    rw [abs_le, piNum, piDen]; constructor <;> push_cast <;> linarith
  rw [hdiff, abs_mul, abs_of_nonneg (by positivity)]
  exact (mul_le_of_le_one_left (abs_nonneg _) (by linarith)).trans hpi

theorem abs_modelAngle_le : |modelAngle k| ≤ 1.6 := by
  have hk' : (k : ℝ) ≤ 16384 := by exact_mod_cast hk
  rw [modelAngle, abs_of_nonneg (by positivity), piNum, piDen]
  push_cast
  linarith

/-- The model's series is the real cosine to within 1e-9 (log entry 5). -/
theorem abs_cos_sub_series_le :
    |16384 * Real.cos (radians k) - seriesNum k / seriesDen| ≤ 1 / 10 ^ 9 := by
  have hangle := (Real.abs_cos_sub_cos_le _ _).trans (abs_radians_sub_modelAngle_le hk)
  have hx := abs_modelAngle_le hk
  have hpoly : |Real.cos (modelAngle k) - cosPoly (modelAngle k)| ≤ 1 / 10 ^ 14 :=
    calc _ ≤ |modelAngle k| ^ 20 / (20).factorial * 2 := abs_cos_sub_cosPoly_le (by linarith)
      _ ≤ 1.6 ^ 20 / (20).factorial * 2 := by gcongr
      _ ≤ 1 / 10 ^ 14 := by norm_num [Nat.factorial]
  rw [seriesNum_div, ← mul_sub, abs_mul, abs_of_nonneg (by norm_num)]
  have htri := abs_sub_le (Real.cos (radians k)) (Real.cos (modelAngle k)) (cosPoly (modelAngle k))
  linarith

end

/-! ### No halfway case (R147)

That no angle of the first quadrant comes nearer to a halfway point than R147 says has no proof but the
evaluation of each, as in that rule. The sums are evaluated by Horner's scheme, with the operations of `Nat`
that the kernel computes. -/

/-- The coefficient of `k ^ (2 * n)` in the model's series. -/
def seriesCoeff (n : Nat) : Nat := cosCoeff n * (piNum ^ 2) ^ n * halfTurnSq ^ (9 - n)

/-- One step of Horner's scheme. -/
def hornerStep (q n acc : Nat) : Nat := Nat.add (Nat.mul acc q) (seriesCoeff n)

/-- The terms with a plus sign, at `q = k ^ 4`. -/
def hornerEven (q : Nat) : Nat :=
  hornerStep q 0 (hornerStep q 2 (hornerStep q 4 (hornerStep q 6 (seriesCoeff 8))))

/-- The terms with a minus sign over `k ^ 2`, at `q = k ^ 4`. -/
def hornerOdd (q : Nat) : Nat :=
  hornerStep q 1 (hornerStep q 3 (hornerStep q 5 (hornerStep q 7 (seriesCoeff 9))))

theorem cosEven_eq_horner (k : Nat) : cosEven ((k * piNum) ^ 2) halfTurnSq = hornerEven (k ^ 4) := by
  simp only [cosEven, cosTerm, hornerEven, hornerStep, seriesCoeff, Nat.add_eq, Nat.mul_eq]
  ring

theorem cosOdd_eq_horner (k : Nat) : cosOdd ((k * piNum) ^ 2) halfTurnSq = hornerOdd (k ^ 4) * k ^ 2 := by
  simp only [cosOdd, cosTerm, hornerOdd, hornerStep, seriesCoeff, Nat.add_eq, Nat.mul_eq]
  ring

/-- The positive part of what `nearest` divides by `2 * seriesDen`. -/
def roundedPos (k : Nat) : Nat := Nat.add (Nat.mul 32768 (hornerEven (Nat.pow k 4))) seriesDen

/-- The negative part. -/
def roundedNeg (k : Nat) : Nat := Nat.mul 32768 (Nat.mul (hornerOdd (Nat.pow k 4)) (Nat.pow k 2))

theorem two_mul_seriesNum_add (k : Nat) :
    2 * seriesNum k + seriesDen = (roundedPos k : Int) - (roundedNeg k : Int) := by
  simp only [seriesNum, roundedPos, roundedNeg, cosEven_eq_horner, cosOdd_eq_horner, Nat.add_eq, Nat.mul_eq,
    Nat.pow_eq]
  push_cast
  ring

/-- The divisor of the rounding. -/
def roundingDen : Nat := 2 * seriesDen

/-- The part of the divisor a remainder keeps from both its ends, times `10 ^ 9`. -/
def margin : Nat := 875 * roundingDen

/-- The rounding of `k`'s value leaves a remainder with the margin on both sides. -/
def clearOfHalf (k : Nat) : Bool :=
  let rem := Nat.mul 1000000000 (Nat.mod (Nat.sub (roundedPos k) (roundedNeg k)) roundingDen)
  Nat.ble (roundedNeg k) (roundedPos k) && Nat.ble margin rem &&
    Nat.ble (Nat.add rem margin) (Nat.mul 1000000000 roundingDen)

theorem clearOfHalf_rows :
    ((List.range 128).all fun i => (List.range 128).all fun j => clearOfHalf (128 * i + j)) = true := by
  decide +kernel

theorem clearOfHalf_of_le {k : Nat} (hk : k ≤ 16384) : clearOfHalf k = true := by
  rcases hk.eq_or_lt with rfl | hlt
  · decide +kernel
  · rw [← Nat.div_add_mod k 128]
    have hrow := List.all_eq_true.1 clearOfHalf_rows (k / 128) (List.mem_range.2 (by omega))
    exact List.all_eq_true.1 hrow (k % 128) (List.mem_range.2 (Nat.mod_lt k (by decide)))

/-- What `nearest` leaves, by the remainder of its division. -/
theorem div_sub_nearest (num : Int) {den : Nat} (hden : 0 < den) :
    (num : ℝ) / den - nearest num den = ((2 * num + den) % (2 * den : Nat) : Int) / (2 * den) - 1 / 2 := by
  have hdiv : ((2 * num + den : Int) : ℝ) = _ :=
    congrArg Int.cast (Int.mul_ediv_add_emod (2 * num + den) (2 * den : Nat)).symm
  have hden' : (den : ℝ) ≠ 0 := by exact_mod_cast hden.ne'
  rw [nearest]
  push_cast at hdiv ⊢
  field_simp
  linarith

/-- The value `cosQuarter` rounds stays `8.75e-7` from a halfway point. -/
theorem abs_series_sub_cosQuarter_le {k : Nat} (hk : k ≤ 16384) :
    |(seriesNum k : ℝ) / seriesDen - cosQuarter k| ≤ 1 / 2 - 875 / 10 ^ 9 := by
  have hclear := clearOfHalf_of_le hk
  simp only [clearOfHalf, Bool.and_eq_true, Nat.ble_eq, Nat.add_eq, Nat.mul_eq, Nat.sub_eq] at hclear
  obtain ⟨⟨hsub, hlo⟩, hhi⟩ := hclear
  generalize hrem : Nat.mod (roundedPos k - roundedNeg k) roundingDen = rem at hlo hhi
  have hmod : (2 * seriesNum k + seriesDen) % (2 * seriesDen : Nat) = rem := by
    rw [two_mul_seriesNum_add, ← Nat.cast_sub hsub, ← Int.natCast_mod, ← hrem]
    rfl
  have hden := two_mul_seriesDen_pos
  have hlo' : (875 : ℝ) * (2 * seriesDen) ≤ 10 ^ 9 * rem := by exact_mod_cast hlo
  have hhi' : (10 : ℝ) ^ 9 * rem + 875 * (2 * seriesDen) ≤ 10 ^ 9 * (2 * seriesDen) := by
    exact_mod_cast hhi
  have hlower : 875 / 10 ^ 9 ≤ (rem : ℝ) / (2 * seriesDen) := by rw [le_div_iff₀ hden]; linarith
  have hupper : (rem : ℝ) / (2 * seriesDen) ≤ 1 - 875 / 10 ^ 9 := by rw [div_le_iff₀ hden]; linarith
  rw [cosQuarter_eq_nearest, div_sub_nearest _ seriesDen_pos, hmod, Int.cast_natCast, abs_le]
  constructor <;> linarith

/-- At 6890 units, as at 58646, the value comes within `8.77e-7` of a halfway point (R147). -/
theorem le_abs_series_sub_cosQuarter :
    1 / 2 - 877 / 10 ^ 9 ≤ |(seriesNum 6890 : ℝ) / seriesDen - cosQuarter 6890| := by
  have hrem : 10 ^ 9 * ((2 * seriesNum 6890 + seriesDen) % (2 * seriesDen : Nat)) ≤
      877 * (2 * seriesDen : Nat) := by
    decide +kernel
  have hden := two_mul_seriesDen_pos
  have hrem' : (10 : ℝ) ^ 9 * ((2 * seriesNum 6890 + seriesDen) % (2 * seriesDen : Nat) : Int) ≤
      877 * (2 * seriesDen) := by exact_mod_cast hrem
  have hfrac : ((2 * seriesNum 6890 + seriesDen) % (2 * seriesDen : Nat) : Int) / (2 * seriesDen : ℝ) ≤
      877 / 10 ^ 9 := by
    rw [div_le_iff₀ hden]
    linarith
  rw [cosQuarter_eq_nearest, div_sub_nearest _ seriesDen_pos, le_abs]
  right
  linarith

/-! ### COSQ and SINQ of the whole circle -/

theorem radians_half : radians 32768 = Real.pi := by
  rw [radians]
  ring

theorem cos_radians_neg (x : ℝ) : Real.cos (radians (-x)) = Real.cos (radians x) := by
  rw [← Real.cos_neg, radians, radians]
  ring_nf

theorem cos_radians_add_half (x : ℝ) : Real.cos (radians (x + 32768)) = -Real.cos (radians x) := by
  rw [← Real.cos_add_pi, ← radians_half, radians, radians, radians]
  ring_nf

theorem cos_radians_sub_quarter (x : ℝ) : Real.cos (radians (x - 16384)) = Real.sin (radians x) := by
  rw [← Real.cos_sub_pi_div_two, ← radians_half, radians, radians, radians]
  ring_nf

theorem cos_radians_add_turns (x : ℝ) (j : ℤ) :
    Real.cos (radians (x + j * 65536)) = Real.cos (radians x) := by
  rw [← Real.cos_add_int_mul_two_pi (radians x) j, radians, radians]
  ring_nf

/-- The cosine of an angle given modulo a full turn. -/
theorem cos_radians_toNat {a : Angle} {n : Int} (h : n % 65536 = a.toNat) :
    Real.cos (radians a.toNat) = Real.cos (radians n) := by
  have hn : (n : ℝ) = (a.toNat : ℝ) + (n / 65536 : Int) * 65536 := by
    exact_mod_cast (h ▸ (Int.emod_add_ediv_mul n 65536).symm : n = a.toNat + n / 65536 * 65536)
  rw [hn, cos_radians_add_turns]

/-- `q` is the integer nearest to 16384 times the cosine of `x` units, with R147's distance from a halfway
case. -/
def NearCos (x : ℝ) (q : Int) : Prop := |16384 * Real.cos (radians x) - q| ≤ 1 / 2 - 87 / 100000000

section
variable {x y : ℝ} {q q' : Int}

theorem NearCos.congr (h : NearCos x q) (hy : Real.cos (radians y) = Real.cos (radians x)) : NearCos y q := by
  rwa [NearCos, hy]

theorem NearCos.neg (h : NearCos x q) (hy : Real.cos (radians y) = -Real.cos (radians x)) :
    NearCos y (-q) := by
  rwa [NearCos, hy, Int.cast_neg, mul_neg, ← neg_sub', abs_neg]

theorem NearCos.unique (h : NearCos x q) (h' : NearCos x q') : q = q' := by
  obtain ⟨hlo, hhi⟩ := abs_le.1 h
  obtain ⟨hlo', hhi'⟩ := abs_le.1 h'
  have hlt : (q : ℝ) < q' + 1 := by linarith
  have hlt' : (q' : ℝ) < q + 1 := by linarith
  norm_cast at hlt hlt'
  omega

theorem NearCos.mem_range (h : NearCos x q) : -16384 ≤ q ∧ q ≤ 16384 := by
  obtain ⟨hlo, hhi⟩ := abs_le.1 h
  have hlt : (q : ℝ) < 16385 := by linarith [Real.cos_le_one (radians x)]
  have hlt' : (-16385 : ℝ) < q := by linarith [Real.neg_one_le_cos (radians x)]
  norm_cast at hlt hlt'
  omega

end

theorem cosQuarter_near {k : Nat} (hk : k ≤ 16384) : NearCos k (cosQuarter k) := by
  have htri := abs_sub_le (16384 * Real.cos (radians k)) (seriesNum k / seriesDen) (cosQuarter k)
  rw [NearCos]
  linarith [abs_cos_sub_series_le hk, abs_series_sub_cosQuarter_le hk]

/-- COSQ in each quadrant, by the symmetries of the cosine. -/
theorem cosq_near (a : Angle) : NearCos a.toNat (cosq a) := by
  have ha := a.isLt
  rcases le_or_gt a.toNat 16384 with h1 | h1
  · exact cosq_first a h1 ▸ cosQuarter_near h1
  rcases le_or_gt a.toNat 32768 with h2 | h2
  · refine cosq_second a h1 h2 ▸ (cosQuarter_near (by omega)).neg ?_
    rw [← cos_radians_add_half, ← cos_radians_neg, ← cos_radians_add_turns _ 1, Nat.cast_sub h2]
    push_cast
    ring_nf
  rcases le_or_gt a.toNat 49152 with h3 | h3
  · refine cosq_third a h2 h3 ▸ (cosQuarter_near (by omega)).neg ?_
    rw [← cos_radians_add_half, Nat.cast_sub h2.le]
    push_cast
    ring_nf
  · refine cosq_fourth a h3 ▸ (cosQuarter_near (by omega)).congr ?_
    rw [← cos_radians_neg, ← cos_radians_add_turns _ 1, Nat.cast_sub ha.le]
    push_cast
    ring_nf

/-- SINQ is the cosine of the angle a quarter turn before. -/
theorem sinq_near (a : Angle) : NearCos (a.toNat - 16384) (sinq a) := by
  refine (cosq_near (a - 16384#16)).congr ?_
  rw [cos_radians_toNat (n := a.toNat - 16384)]
  · push_cast; rfl
  · rw [BitVec.toNat_sub]
    have ha := a.isLt
    simp only [BitVec.toNat_ofNat]
    omega

/-- Settles O35: COSQ and SINQ are near the real values; 58646 units are 6890 before a full turn. -/
theorem trigIsNearestInteger : Obligations.TrigIsNearestInteger := by
  refine ⟨fun a => ?_, ?_, by decide⟩
  · have hsin := sinq_near a
    obtain ⟨hcos1, hcos2⟩ := (cosq_near a).mem_range
    obtain ⟨hsin1, hsin2⟩ := hsin.mem_range
    rw [NearCos, cos_radians_sub_quarter] at hsin
    exact ⟨cosq_near a, hsin, hcos1, hcos2, hsin1, hsin2⟩
  · have hq : cosq 58646#16 = cosQuarter 6890 := cosq_fourth 58646#16 (by decide)
    have hcos : Real.cos (2 * Real.pi * 58646 / 65536) = Real.cos (radians (6890 : Nat)) := by
      rw [← cos_radians_neg, ← cos_radians_add_turns _ 1, radians]
      norm_num
    have hseries := abs_cos_sub_series_le (k := 6890) (by decide)
    have htri := abs_sub_le ((seriesNum 6890 : ℝ) / seriesDen) (16384 * Real.cos (radians (6890 : Nat)))
      (cosQuarter 6890)
    rw [abs_sub_comm] at hseries
    rw [hq, hcos]
    linarith [le_abs_series_sub_cosQuarter]

theorem cosq_neg (a : Angle) : cosq (-a) = cosq a := by
  refine (cosq_near (-a)).unique ((cosq_near a).congr ?_)
  rw [cos_radians_toNat (n := -a.toNat), Int.cast_neg, cos_radians_neg]
  · rfl
  · rw [BitVec.toNat_neg]
    omega

theorem cosq_add_half (a : Angle) : cosq (a + 32768#16) = -cosq a := by
  refine (cosq_near _).unique ((cosq_near a).neg ?_)
  rw [cos_radians_toNat (n := a.toNat + 32768), ← cos_radians_add_half]
  · push_cast; rfl
  · rw [BitVec.toNat_add]
    rfl

theorem sinq_eq (a : Angle) : sinq a = cosq (a - 16384#16) := by
  rw [sinq]

theorem sinq_neg (a : Angle) : sinq (-a) = -sinq a := by
  have hhalf : a - 16384#16 + 32768#16 = a + 16384#16 := by
    rw [sub_add_eq_add_sub, add_sub_assoc]
    rfl
  calc sinq (-a) = cosq (-(a + 16384#16)) := by rw [sinq_eq, neg_add']
    _ = cosq (a - 16384#16 + 32768#16) := by rw [cosq_neg, hhalf]
    _ = -sinq a := by rw [cosq_add_half, sinq_eq]

/-- Settles O37: negation and half turns map the nearest integer to the nearest integer (R150). -/
theorem trigSymmetries : Obligations.TrigSymmetries :=
  ⟨fun a => ⟨cosq_neg a, cosq_add_half a, sinq_eq a, sinq_neg a⟩, by decide +kernel⟩

/-! ### Coordinates (R148, R155) -/

/-- The shift rounds `v / 16384` to the nearest integer. -/
theorem rounded_bounds (v : Int) :
    v - 8192 < 16384 * ((v + 8192) >>> (14 : Nat)) ∧ 16384 * ((v + 8192) >>> (14 : Nat)) ≤ v + 8192 := by
  rw [Int.shiftRight_eq_div_pow]
  omega

/-- Settles O36: a product of at most `16384 * 32767` in size rounds to at most 32767. -/
theorem pointTermsBounded : Obligations.PointTermsBounded := by
  intro a c r q hq rounded
  have hrange : -16384 ≤ q ∧ q ≤ 16384 := by
    rcases List.mem_pair.1 hq with rfl | rfl
    · exact (cosq_near a).mem_range
    · exact (sinq_near a).mem_range
  obtain ⟨hlo, hhi⟩ := rounded_bounds (q * r.toNat)
  have hr : (r.toNat : Int) ≤ 32767 := by exact_mod_cast Nat.le_of_lt_succ r.isLt
  have hproduct : |q * r.toNat| ≤ 16384 * 32767 := by
    rw [abs_mul, Nat.abs_cast]
    exact mul_le_mul (abs_le.2 hrange) hr (by omega) (by omega)
  have hc := BitVec.le_toInt c
  have hc' := BitVec.toInt_lt (x := c)
  rw [abs_le] at hproduct
  simp only [rounded]
  omega

/-- A coordinate is near the real one: 1/2 for the rounding, `R / 32768` for `q` (R155). -/
theorem abs_coordinate_sub_le {x : ℝ} {q : Int} (hq : NearCos x q) (c : BitVec 16) (r : BitVec 15) :
    |((c.toInt + (q * (r.toNat : Int) + 8192) >>> (14 : Nat) : Int) : ℝ) -
      ((c.toInt : ℝ) + (r.toNat : ℝ) * Real.cos (radians x))| ≤ 1 / 2 + (r.toNat : ℝ) / 32768 := by
  obtain ⟨hlo, hhi⟩ := rounded_bounds (q * r.toNat)
  generalize (q * (r.toNat : Int) + 8192) >>> (14 : Nat) = rounded at hlo hhi ⊢
  have hlo' : (q * r.toNat - 8192 : ℝ) < 16384 * rounded := by exact_mod_cast hlo
  have hhi' : (16384 * rounded : ℝ) ≤ q * r.toNat + 8192 := by exact_mod_cast hhi
  have hterm : |(r.toNat : ℝ) * (16384 * Real.cos (radians x) - q)| ≤ r.toNat * (1 / 2) := by
    rw [abs_mul, Nat.abs_cast]
    exact mul_le_mul_of_nonneg_left (hq.trans (by norm_num)) (Nat.cast_nonneg _)
  rw [abs_le] at hterm ⊢
  push_cast
  constructor <;> linarith

/-- The coordinates that fit are read back from the data (R69). -/
theorem pointData_toInt {xs ys : Int} (h : pointStatus xs ys = .ok) :
    ((pointData xs ys).extractLsb' 0 16).toInt = xs ∧ ((pointData xs ys).extractLsb' 16 16).toInt = ys := by
  obtain ⟨⟨hx, hx'⟩, hy, hy'⟩ := (pointStatus_ok_iff xs ys).1 h
  have hlow : (pointData xs ys).extractLsb' 0 16 = BitVec.ofInt 16 xs := BitVec.extractLsb'_append_eq_right
  have hhigh : (pointData xs ys).extractLsb' 16 16 = BitVec.ofInt 16 ys := BitVec.extractLsb'_append_eq_left
  rw [hlow, hhigh]
  exact ⟨BitVec.toInt_ofInt_eq_self (by decide) hx (by omega),
    BitVec.toInt_ofInt_eq_self (by decide) hy (by omega)⟩

/-- Settles O40. -/
theorem mapaNearRealPoint : Obligations.MapaNearRealPoint := by
  intro s a θ xs ys
  have hx := abs_coordinate_sub_le (cosq_near a) s.cx s.r
  have hy := abs_coordinate_sub_le (sinq_near a) s.cy s.r
  rw [cos_radians_sub_quarter] at hy
  refine ⟨hx, hy, fun t d hexec hresponses => ?_⟩
  obtain rfl := Host.Outcome.next.inj ((exec_mapa a s).symm.trans hexec)
  obtain ⟨hstatus, rfl⟩ := Response.mk.inj (List.singleton_inj.1 (List.append_cancel_left hresponses))
  simpa only [← coordinate_eq_shift, xs, ys] using pointData_toInt hstatus

/-- A slot's base angle in units less an offset, not reduced to a full turn (R36, R149). -/
noncomputable def slotUnits (slot : BitVec 3) (offset : ℝ) : ℝ :=
  ((baseHalfDegrees.getD slot.toNat 0 : Int) : ℝ) * 65536 / 720 - offset

/-- The angle of MAPS is that of the source's base angle and the whole units of the offset. -/
theorem slotAngle_units (slot : BitVec 3) (frm nframes : BitVec 24) :
    ∃ j : ℤ, ((slotAngle slot frm nframes).toNat : ℝ) =
      slotUnits slot (rotationOffset frm nframes) + j * 65536 := by
  obtain ⟨i, hi⟩ := Int.dvd_of_emod_eq_zero (baseAngleTable.2 slot)
  have hbase : ((baseAngle slot).toNat : ℝ) * 720 -
      ((baseHalfDegrees.getD slot.toNat 0 : Int) : ℝ) * 65536 = 720 * 65536 * i := by exact_mod_cast hi
  have hmod : ((slotAngle slot frm nframes).toNat : Int) =
      ((baseAngle slot).toNat - rotationOffset frm nframes) % 65536 := by
    rw [slotAngle, BitVec.toNat_ofInt]
    omega
  have hturns := Int.emod_add_ediv_mul ((baseAngle slot).toNat - rotationOffset frm nframes : Int) 65536
  rw [← hmod] at hturns
  have hturns' : _ = _ := congrArg (Int.cast (R := ℝ)) hturns
  refine ⟨i - ((baseAngle slot).toNat - rotationOffset frm nframes : Int) / 65536, ?_⟩
  rw [slotUnits]
  push_cast at hturns' ⊢
  linarith

/-- The offset is the exact one, cut to whole units. -/
theorem abs_rotationOffset_sub_le {frm nframes : BitVec 24} (h : frm.toNat < nframes.toNat) :
    |(rotationOffset frm nframes : ℝ) - frm.toNat * 8192 / nframes.toNat| ≤ 1 := by
  have hpos : (0 : ℝ) < nframes.toNat := by exact_mod_cast Nat.zero_lt_of_lt h
  have hle : (rotationOffset frm nframes : ℝ) ≤ frm.toNat * 8192 / nframes.toNat := by
    exact_mod_cast Nat.cast_div_le (α := ℝ) (m := frm.toNat * 8192) (n := nframes.toNat)
  have hlt : (frm.toNat * 8192 / nframes.toNat : ℝ) < rotationOffset frm nframes + 1 := by
    rw [div_lt_iff₀ hpos]
    exact_mod_cast Nat.lt_mul_of_div_lt (Nat.lt_succ_self _) (Nat.zero_lt_of_lt h)
  rw [abs_le]
  constructor <;> linarith

/-- The cosine of the slot's angle, less a quarter turn or none, is near that of the source's exact angle. -/
theorem abs_cos_slotAngle_sub_le {frm nframes : BitVec 24} (h : frm.toNat < nframes.toNat)
    (slot : BitVec 3) (z : ℝ) :
    |Real.cos (radians ((slotAngle slot frm nframes).toNat - z)) -
      Real.cos (radians (slotUnits slot (frm.toNat * 8192 / nframes.toNat) - z))| ≤
        2 * Real.pi / 65536 := by
  obtain ⟨j, hj⟩ := slotAngle_units slot frm nframes
  rw [hj, add_sub_right_comm, cos_radians_add_turns]
  refine (Real.abs_cos_sub_cos_le _ _).trans ?_
  have hdiff : radians (slotUnits slot (rotationOffset frm nframes) - z) -
      radians (slotUnits slot (frm.toNat * 8192 / nframes.toNat) - z) =
      -(2 * Real.pi / 65536 * (rotationOffset frm nframes - frm.toNat * 8192 / nframes.toNat)) := by
    rw [radians, radians, slotUnits, slotUnits]
    ring
  rw [hdiff, abs_neg, abs_mul, abs_of_pos (by positivity)]
  exact mul_le_of_le_one_right (by positivity) (abs_rotationOffset_sub_le h)

/-- A coordinate is as near to the real one for a value `c'` as the cosine is to `c'` (R155). -/
theorem abs_coordinate_sub_le_of_near {x c' ε : ℝ} {q : Int} (hq : NearCos x q)
    (hc' : |Real.cos (radians x) - c'| ≤ ε) (c : BitVec 16) (r : BitVec 15) :
    |((c.toInt + (q * (r.toNat : Int) + 8192) >>> (14 : Nat) : Int) : ℝ) -
      ((c.toInt : ℝ) + (r.toNat : ℝ) * c')| ≤ 1 / 2 + (r.toNat : ℝ) / 32768 + r.toNat * ε := by
  have hcoordinate := abs_coordinate_sub_le hq c r
  have hterm : |(r.toNat : ℝ) * (Real.cos (radians x) - c')| ≤ r.toNat * ε := by
    rw [abs_mul, Nat.abs_cast]
    exact mul_le_mul_of_nonneg_left hc' (Nat.cast_nonneg _)
  rw [abs_le] at *
  constructor <;> linarith

/-- Settles O41: the source's exact angle is less than one unit below the angle of the point. -/
theorem mapsNearRealPoint : Obligations.MapsNearRealPoint := by
  intro s slot frm hin degrees θ bound base a xs ys
  have hangle : slotAngle slot frm s.nframes = a := slotAngle_eq_ofNat hin slot
  have hθ : θ = radians (slotUnits slot (frm.toNat * 8192 / s.nframes.toNat)) := by
    simp only [θ, degrees, radians, slotUnits, baseHalfDegrees]
    ring
  have hbound : bound = 1 / 2 + (s.r.toNat : ℝ) / 32768 + s.r.toNat * (2 * Real.pi / 65536) := by
    simp only [bound]
    ring
  have hcos := abs_cos_slotAngle_sub_le hin slot 0
  have hsin := abs_cos_slotAngle_sub_le hin slot 16384
  rw [hangle, sub_zero, sub_zero, ← hθ] at hcos
  rw [hangle, cos_radians_sub_quarter (slotUnits _ _), ← hθ] at hsin
  have hexec : exec (.maps slot frm) s = .next (point a s) := hangle ▸ exec_maps_accepted hin slot
  have hx : xs = coordinate s.cx (cosq a) s.r := (coordinate_eq_shift _ _ _).symm
  have hy : ys = coordinate s.cy (sinq a) s.r := (coordinate_eq_shift _ _ _).symm
  refine ⟨hbound ▸ abs_coordinate_sub_le_of_near (cosq_near a) hcos s.cx s.r,
    hbound ▸ abs_coordinate_sub_le_of_near (sinq_near a) hsin s.cy s.r,
    point a s, pointStatus xs ys, pointData xs ys, hexec, point_lastang a s, ?_,
    pointStatus_cases xs ys, rfl, pointData_toInt⟩
  rw [point_responses, pointResponse, hx, hy]

end Sys2Proof.Proofs

namespace Sys2Proof.Proofs
open Sys2Proof.Machine

/-! ### The control commands -/

/-- Settles O17. -/
theorem nopCommand : Obligations.NopCommand :=
  ⟨wordRuns_encode .nop, fun _ => wordIllegal_of_reserved .nop rfl, fun s =>
    congrArg Host.Outcome.next (respond_ok_eq 0#32 s)⟩

theorem toNat_statusWord (s : State) :
    (statusWord s).toNat = (if s.ended = true then 2 ^ 8 else 0) + s.err.toNat := by
  simp only [statusWord, toNat_append_add, BitVec.toNat_zero]
  cases s.ended <;> rfl

theorem statusWord_eq_ofNat (s : State) :
    statusWord s = BitVec.ofNat 32 ((if s.ended = true then 2 ^ 8 else 0) + s.err.toNat) := by
  rw [← toNat_statusWord, BitVec.ofNat_toNat, BitVec.setWidth_eq]

theorem toNat_pendWord (s : State) :
    (pendWord s).toNat = s.acc.toNat + s.cnt.toNat * 2 ^ 16 + s.drop.toNat * 2 ^ 24 := by
  simp only [pendWord, toNat_append_add, BitVec.toNat_zero]
  omega

theorem pendWord_eq_ofNat (s : State) :
    pendWord s = BitVec.ofNat 32 (s.acc.toNat + s.cnt.toNat * 2 ^ 16 + s.drop.toNat * 2 ^ 24) := by
  rw [← toNat_pendWord, BitVec.ofNat_toNat, BitVec.setWidth_eq]

/-- The index map of R181 has no register for an index of 10 or more. -/
theorem regval_reserved {idx : BitVec 4} (h : 10 ≤ idx.toNat) (s : State) : regval idx s = none := by
  obtain ⟨k, hk⟩ := Nat.exists_eq_add_of_le' h
  simp only [regval, hk]

/-- RDREG of a register narrower than 32 bits reads its value, zero-extended. -/
theorem exec_rdreg_zeroExtend {s : State} {idx : BitVec 4} {n : Nat} {x : BitVec n}
    (h : regval idx s = some (x.zeroExtend 32)) :
    exec (.rdreg idx) s = .next (s.reply .ok (BitVec.ofNat 32 x.toNat)) :=
  BitVec.ofNat_toNat 32 x ▸ exec_rdreg_reads h

/-- Settles O18: each index reads its entry of the index map; STATUS and PEND are the sums of their fields. -/
theorem rdregCommand : Obligations.RdregCommand :=
  ⟨fun idx => wordRuns_field .rdreg idx rfl (by decide) (toNat_zero_append 24 idx),
    fun _ => wordIllegal_of_reserved .rdreg rfl, fun s =>
    ⟨statusWord_eq_ofNat s ▸ exec_rdreg_reads rfl, exec_rdreg_reads rfl, exec_rdreg_reads rfl,
      pendWord_eq_ofNat s ▸ exec_rdreg_reads rfl, exec_rdreg_reads rfl, exec_rdreg_reads rfl,
      exec_rdreg_zeroExtend rfl, exec_rdreg_zeroExtend rfl, exec_rdreg_id s, exec_rdreg_zeroExtend rfl,
      fun _ hreserved => exec_rdreg_reserved (regval_reserved hreserved s)⟩⟩

theorem exec_eclr (mask : BitVec 6) (s : State) :
    exec (.eclr mask) s = .next ({ s with err := s.err &&& ~~~mask }.reply .ok (statusWord s)) :=
  congrArg Host.Outcome.next (respond_ok_eq (statusWord s) { s with err := clearSticky s.err mask })

/-- Settles O19. -/
theorem eclrCommand : Obligations.EclrCommand :=
  ⟨fun mask => wordRuns_field .eclr mask rfl (by decide) (toNat_zero_append 22 mask),
    fun _ => wordIllegal_of_reserved .eclr rfl,
    fun mask s => statusWord_eq_ofNat s ▸ exec_eclr mask s⟩

end Sys2Proof.Proofs

namespace Sys2Proof.Proofs
open Sys2Proof.Machine Sys2Proof.Laws

/-! ### The host and its answers (R200, R209) -/

/-- Settles O4. -/
theorem waitsForTheHost : Obligations.WaitsForTheHost := step_waits

theorem status_code_le (st : Status) : st.code.toNat ≤ 6 := by
  cases st <;> decide

/-- Settles O6: the step of a word appends one response, and no status has a code above 6. -/
theorem everyWordIsAnsweredOnce : Obligations.EveryWordIsAnsweredOnce := by
  intro s w rest hpending
  obtain ⟨t, r, hstep, ht, hresponse⟩ := step_answers hpending
  exact ⟨t, r, hstep, ht, hresponse, status_code_le r.status⟩

/-! ### The status of a word (R205) -/

/-- The index map of R181 has a register for the indices below 10 only. -/
theorem regval_eq_none_iff (idx : BitVec 4) (s : State) : regval idx s = none ↔ 10 ≤ idx.toNat := by
  refine ⟨fun h => ?_, fun h => regval_reserved h s⟩
  unfold regval at h
  split at h
  case h_11 => grind
  all_goals cases h

/-- The status of a command by the checks it makes, in their order. -/
def commandStatus (i : Instr) (s : State) : Status :=
  match i with
  | .pushs _ => if s.ended then .seq else .ok
  | .pushc chr => if s.ended then .seq else if alpha chr = none then .char else .ok
  | .endMsg => lengthStatus s.incnt
  | .mapa ang => (pointResponse ang s).status
  | .maps slot frm =>
    if frm.toNat < s.nframes.toNat then (pointResponse (slotAngle slot frm s.nframes) s).status else .arg
  | .rdreg idx => if idx.toNat < 10 then .ok else .arg
  | .nop | .clr | .setcx _ | .setcy _ | .setr _ | .setn _ | .eclr _ => .ok

/-- The encoding check comes before a command's own checks (R205 point 1). -/
def wordStatus (w : Word) (s : State) : Status :=
  match decode w with
  | .error _ => .enc
  | .ok i => commandStatus i s

theorem wordStatus_illegal {w : Word} {e : Illegal} (h : decode w = .error e) (s : State) :
    wordStatus w s = .enc := by
  rw [wordStatus, h]

theorem wordStatus_legal {w : Word} {i : Instr} (h : decode w = .ok i) (s : State) :
    wordStatus w s = commandStatus i s := by
  rw [wordStatus, h]

theorem commandStatus_set_pending (i : Instr) (s : State) (as : List HostAction) :
    commandStatus i { s with pending := as } = commandStatus i s := by
  cases i <;> rfl

theorem wordStatus_set_pending (w : Word) (s : State) (as : List HostAction) :
    wordStatus w { s with pending := as } = wordStatus w s := by
  simp only [wordStatus, commandStatus_set_pending]

theorem accept_responses (sym : Symbol) (s : State) :
    ∃ d, (accept sym s).responses = s.responses ++ [⟨.ok, d⟩] := by
  obtain ⟨acc, cnt, bytecnt, d, haccept⟩ := accept_writes sym s
  exact ⟨d, by rw [haccept]; rfl⟩

/-- A command answers with the status of its checks. -/
theorem execEffect_status {i : Instr} {s t : State} (heff : ExecEffect s i t) :
    ∃ d, t.responses = s.responses ++ [⟨commandStatus i s, d⟩] := by
  cases heff with
  | pushsOpen sym hopen => simpa [commandStatus, hopen] using accept_responses sym s
  | pushcOpen chr sym hopen halpha => simpa [commandStatus, hopen, halpha] using accept_responses sym s
  | pushsEnded _ hended | pushcEnded _ hended => simp [commandStatus, hended]
  | pushcAbsent chr hopen habsent => simp [commandStatus, hopen, habsent]
  | endOk hlength | endLen hlength => simp [commandStatus, hlength]
  | mapa ang => exact ⟨_, point_responses ang s⟩
  | mapsInRange slot frm hin =>
    refine ⟨(pointResponse (slotAngle slot frm s.nframes) s).data, ?_⟩
    rw [point_responses, commandStatus, if_pos hin]
  | mapsRefused slot frm hout => simp [commandStatus, hout]
  | rdreg idx v hreads =>
    have hlt : idx.toNat < 10 := by
      by_contra hge
      simp [regval_reserved (Nat.le_of_not_lt hge)] at hreads
    simp [commandStatus, hlt]
  | rdregReserved idx hnone =>
    have hge := (regval_eq_none_iff idx s).1 hnone
    simp [commandStatus, hge]
  | _ => exact ⟨_, rfl⟩

theorem response_eq_of_append {rs : List Response} {st st' : Status} {d d' : Word}
    (h : rs ++ [⟨st', d'⟩] = rs ++ [⟨st, d⟩]) : st = st' ∧ d = d' := by
  obtain ⟨hst, hd⟩ := Response.mk.inj (List.singleton_inj.1 (List.append_cancel_left h))
  exact ⟨hst.symm, hd.symm⟩

/-- The step of a word answers with the word's status. -/
theorem step_status {s t : State} {w : Word} {rest : List HostAction} {st : Status} {d : Word}
    (hpending : s.pending = .command w :: rest) (hstep : step s = .next t)
    (hresponse : t.responses = s.responses ++ [⟨st, d⟩]) : st = wordStatus w s := by
  rcases step_effect hpending hstep with ⟨e, hdecode, rfl⟩ | ⟨i, hdecode, heff⟩
  · exact (response_eq_of_append hresponse).1.trans (wordStatus_illegal hdecode s).symm
  · obtain ⟨d', hstatus⟩ := execEffect_status heff
    rw [commandStatus_set_pending, ← wordStatus_legal hdecode] at hstatus
    exact (response_eq_of_append (hstatus.symm.trans hresponse)).1

theorem pointStatus_by_range (xs ys : Int) :
    (outsideRange xs ys → pointStatus xs ys = .wrap) ∧ (¬ outsideRange xs ys → pointStatus xs ys = .ok) := by
  rw [← pointStatus_ok_iff_not_outside]
  refine ⟨fun hout => (pointStatus_cases xs ys).resolve_left fun hok => ?_, id⟩
  exact (pointStatus_ok_iff_not_outside xs ys).1 hok hout

/-- Settles O46: the status is `wordStatus`, whose checks are those of R205 in the same order. -/
theorem priorityOfChecks : Obligations.PriorityOfChecks := by
  unfold Obligations.PriorityOfChecks
  intro outside wraps s t w rest st d hpending hstep hresponse
  have hpoint : ∀ a, (wraps s a → (pointResponse a s).status = .wrap) ∧
      (¬ wraps s a → (pointResponse a s).status = .ok) := by
    intro a
    have hwraps : wraps s a ↔
        outsideRange (coordinate s.cx (cosq a) s.r) (coordinate s.cy (sinq a) s.r) := by
      simp only [wraps, outside, outsideRange, coordinate_eq_shift, or_assoc]
    rw [hwraps]
    exact pointStatus_by_range _ _
  obtain rfl := step_status hpending hstep hresponse
  cases hdecode : decode w with
  | error e => exact wordStatus_illegal hdecode s
  | ok i =>
    rw [wordStatus_legal hdecode]
    cases i with
    | pushs sym => exact ⟨fun hended => if_pos hended, fun hopen => if_neg (by simp [hopen])⟩
    | pushc chr =>
      refine ⟨fun hended => if_pos hended, fun hopen habsent => ?_, fun hopen hpresent => ?_⟩
      · simp [commandStatus, hopen, habsent]
      · simp [commandStatus, hopen, hpresent]
    | endMsg => exact ⟨(lengthStatus_len_iff s.incnt).2, (lengthStatus_ok_iff s.incnt).2⟩
    | mapa a => exact hpoint a
    | maps slot frm =>
      refine ⟨fun hout => if_neg (by omega), fun hin => ?_⟩
      have hangle := slotAngle_eq_sub slot frm s.nframes
      rw [rotationOffset_eq] at hangle
      simpa only [commandStatus, if_pos hin, ← hangle] using hpoint (slotAngle slot frm s.nframes)
    | rdreg idx => exact ⟨fun hreserved => if_neg (by omega), fun hlt => if_pos hlt⟩
    | nop | clr | setcx | setcy | setr | setn | eclr => rfl

/-! ### The statuses of each opcode (R204) -/

/-- The statuses a command of an opcode can give: R204's row without ENC. -/
def commandStatuses : Opcode → List Status
  | .pushs => [.ok, .seq]
  | .pushc => [.ok, .char, .seq]
  | .endMsg => [.ok, .len]
  | .mapa => [.ok, .wrap]
  | .maps => [.ok, .arg, .wrap]
  | .rdreg => [.ok, .arg]
  | .nop | .clr | .setcx | .setcy | .setr | .setn | .eclr => [.ok]

theorem commandStatus_mem (i : Instr) (s : State) : commandStatus i s ∈ commandStatuses i.opcode := by
  have hpoint : ∀ a, (pointResponse a s).status = .ok ∨ (pointResponse a s).status = .wrap :=
    fun a => pointStatus_cases _ _
  cases i with
  | pushs sym => cases h : s.ended <;> simp [commandStatus, commandStatuses, Instr.opcode, h]
  | pushc chr =>
    simp only [commandStatus]
    split_ifs <;> simp [commandStatuses, Instr.opcode]
  | endMsg => exact List.mem_pair.2 (lengthStatus_cases s.incnt)
  | mapa a => exact List.mem_pair.2 (hpoint a)
  | maps slot frm =>
    simp only [commandStatus]
    split_ifs
    · rcases hpoint (slotAngle slot frm s.nframes) with h | h <;> simp [h, commandStatuses, Instr.opcode]
    · simp [commandStatuses, Instr.opcode]
  | rdreg idx =>
    simp only [commandStatus]
    split_ifs <;> simp [commandStatuses, Instr.opcode]
  | nop | clr | setcx | setcy | setr | setn | eclr => exact List.mem_singleton_self _

/-- A circle whose point at angle 0 is one beyond the range (R148). -/
def edgeCircle : State := { State.reset with cx := 32767#16, r := 1#15, nframes := 1#24 }

/-- Each status of the row is given by some command in some state. -/
theorem exists_commandStatus {op : Opcode} {st : Status} (h : st ∈ commandStatuses op) :
    ∃ i s, i.opcode = op ∧ commandStatus i s = st := by
  cases op with
  | nop | clr | setcx | setcy | setr | setn | eclr =>
    exact ⟨_, State.reset, operands_opcode _ 0#32, (List.mem_singleton.1 h).symm⟩
  | pushs =>
    rcases List.mem_pair.1 h with rfl | rfl
    · exact ⟨.pushs 0#5, State.reset, rfl, rfl⟩
    · exact ⟨.pushs 0#5, endMessage State.reset, rfl, rfl⟩
  | pushc =>
    simp only [commandStatuses, List.mem_cons, List.not_mem_nil, or_false] at h
    rcases h with rfl | rfl | rfl
    · exact ⟨.pushc 0x41#8, State.reset, rfl, by decide⟩
    · exact ⟨.pushc 0x61#8, State.reset, rfl, by decide⟩
    · exact ⟨.pushc 0x41#8, endMessage State.reset, rfl, by decide⟩
  | endMsg =>
    rcases List.mem_pair.1 h with rfl | rfl
    · exact ⟨.endMsg, { State.reset with incnt := 8#32 }, rfl, by decide⟩
    · exact ⟨.endMsg, State.reset, rfl, by decide⟩
  | mapa =>
    rcases List.mem_pair.1 h with rfl | rfl
    · exact ⟨.mapa 0#16, State.reset, rfl, by decide⟩
    · exact ⟨.mapa 0#16, edgeCircle, rfl, by decide⟩
  | maps =>
    simp only [commandStatuses, List.mem_cons, List.not_mem_nil, or_false] at h
    rcases h with rfl | rfl | rfl
    · exact ⟨.maps 0#3 0#24, { State.reset with nframes := 1#24 }, rfl, by decide⟩
    · exact ⟨.maps 0#3 0#24, State.reset, rfl, by decide⟩
    · exact ⟨.maps 3#3 0#24, edgeCircle, rfl, by decide⟩
  | rdreg =>
    rcases List.mem_pair.1 h with rfl | rfl
    · exact ⟨.rdreg 0#4, State.reset, rfl, by decide⟩
    · exact ⟨.rdreg 10#4, State.reset, rfl, by decide⟩

/-- The status of a word at a state is answered once the host issues the word there. -/
theorem exists_step_wordStatus (w : Word) (s : State) : ∃ (s' t : State) (rest : List HostAction) (d : Word),
    s'.pending = .command w :: rest ∧ step s' = .next t ∧
      t.responses = s'.responses ++ [⟨wordStatus w s, d⟩] := by
  obtain ⟨t, ⟨st, d⟩, hstep, -, hresponse⟩ :=
    step_answers (s := { s with pending := [.command w] }) (w := w) (rest := []) rfl
  obtain rfl := step_status rfl hstep hresponse
  rw [wordStatus_set_pending] at hresponse
  exact ⟨_, t, [], d, rfl, hstep, hresponse⟩

/-- Bit 27 is reserved in every format (R81). -/
theorem decode_reserved27 (op : BitVec 4) : ∃ e, decode (op ++ 0x8000000#28) = .error e := by
  have h : ∀ op : BitVec 4, decode (op ++ 0x8000000#28) = .error .reservedBits ∨
      decode (op ++ 0x8000000#28) = .error .reservedOpcode := by decide
  rcases h op with h | h
  · exact ⟨_, h⟩
  · exact ⟨_, h⟩

/-- Settles O43: R204's table is ENC everywhere and the commands' own statuses on the opcodes' rows. -/
theorem statusesOfEachOpcode : Obligations.StatusesOfEachOpcode := by
  unfold Obligations.StatusesOfEachOpcode
  intro table op st
  have htable : ∀ op : BitVec 4, st ∈ table op.toNat ↔
      st = .enc ∨ ∃ o ∈ opcodes, o.code = op ∧ st ∈ commandStatuses o := by
    cases st <;> decide
  rw [htable]
  constructor
  · intro hst
    have hword : ∃ w s, opField w = op ∧ wordStatus w s = st := by
      rcases hst with rfl | ⟨o, -, rfl, hst⟩
      · obtain ⟨e, hdecode⟩ := decode_reserved27 op
        exact ⟨_, State.reset, opField_append op _, wordStatus_illegal hdecode _⟩
      · obtain ⟨i, s, rfl, rfl⟩ := exists_commandStatus hst
        exact ⟨encode i, s, opField_append _ _, wordStatus_legal (decode_encode i) s⟩
    obtain ⟨w, s, rfl, rfl⟩ := hword
    obtain ⟨s', t, rest, d, hpending, hstep, hresponse⟩ := exists_step_wordStatus w s
    exact ⟨s', t, w, rest, d, hpending, (toNat_opField w).symm, hstep, hresponse⟩
  · rintro ⟨s, t, w, rest, d, hpending, hop, hstep, hresponse⟩
    obtain rfl : opField w = op := BitVec.eq_of_toNat_eq ((toNat_opField w).trans hop)
    rw [step_status hpending hstep hresponse]
    cases hdecode : decode w with
    | error e => exact .inl (wordStatus_illegal hdecode s)
    | ok i =>
      rw [wordStatus_legal hdecode, ← (decode_ok_iff_encode w i).1 hdecode]
      exact .inr ⟨i.opcode, mem_opcodes _, (opField_append _ _).symm, commandStatus_mem i s⟩

/-! ### The sticky bits of a word (R202) -/

/-- Bit `k` is the sticky bit of status code `k + 1`. -/
theorem stickyBits_getLsbD {k : Nat} (hk : k < 6) (st : Status) :
    (stickyBits st).getLsbD k = decide (st.code.toNat = k + 1) := by
  revert k
  cases st <;> decide

theorem exec_clr (s : State) : exec .clr s = .next ((clearMessage s).reply .ok 0#32) :=
  congrArg Host.Outcome.next (respond_ok_eq 0#32 (clearMessage s))

/-- A word adds its response's sticky bit to STATUS, or it is CLR or ECLR, responds OK and clears bits. -/
theorem step_err_cases {s t : State} {w : Word} {rest : List HostAction} {st : Status} {d : Word}
    (hpending : s.pending = .command w :: rest) (hstep : step s = .next t)
    (hresponse : t.responses = s.responses ++ [⟨st, d⟩]) :
    t.err = s.err ||| stickyBits st ∨ (decode w = .ok .clr ∧ st = .ok ∧ t.err = 0#6) ∨
      ∃ mask, decode w = .ok (.eclr mask) ∧ st = .ok ∧ t.err = s.err &&& ~~~mask := by
  have hst := step_status hpending hstep hresponse
  by_cases hclr : decode w = .ok .clr
  · have ht := (stepRunsDecodedCommand s w rest .clr hpending hclr).symm.trans hstep
    rw [exec_clr] at ht
    cases ht
    exact .inr (.inl ⟨hclr, hst.trans (wordStatus_legal hclr s), rfl⟩)
  by_cases heclr : ∃ mask, decode w = .ok (.eclr mask)
  · obtain ⟨mask, heclr⟩ := heclr
    have ht := (stepRunsDecodedCommand s w rest (.eclr mask) hpending heclr).symm.trans hstep
    rw [exec_eclr] at ht
    cases ht
    exact .inr (.inr ⟨mask, heclr, hst.trans (wordStatus_legal heclr s), rfl⟩)
  · exact .inl (step_sticks hpending hstep hresponse hclr (not_exists.1 heclr))

/-- Settles O44: CLR and ECLR respond OK, whose code is no bit's, and any other word only adds its bit. -/
theorem stickyRecord : Obligations.StickyRecord := by
  intro s t w rest st d hpending hstep hresponse k hk
  rcases step_err_cases hpending hstep hresponse with herr | ⟨hclr, rfl, herr⟩ | ⟨mask, heclr, rfl, herr⟩
  · have hbit : t.err.getLsbD k = (s.err.getLsbD k || decide (st.code.toNat = k + 1)) := by
      rw [herr, BitVec.getLsbD_or, stickyBits_getLsbD hk st]
    rw [hbit]
    refine ⟨fun he => ?_, fun he ht => ?_, fun hs ht => ?_⟩
    · simp [he]
    · simpa [he] using ht
    · simp [hs] at ht
  · have hbit : t.err.getLsbD k = false := by simp [herr]
    rw [hbit]
    exact ⟨nofun, nofun, fun _ _ => .inl hclr⟩
  · have hbit : t.err.getLsbD k = (s.err.getLsbD k && !mask.getLsbD k) := by simp [herr, hk]
    rw [hbit]
    refine ⟨nofun, fun _ ht => (Bool.and_eq_true_iff.1 ht).1, fun hs ht => .inr ⟨mask, heclr, ?_⟩⟩
    simpa [hs] using ht

/-! ### What a response other than OK changes (R203) -/

/-- A point that is not OK is WRAP: LASTANG is the angle and the data is the wrapped point (R148). -/
theorem point_answer_cases {a : Angle} {s : State} {st : Status} {d : Word}
    (hresponse : (point a s).responses = s.responses ++ [⟨st, d⟩]) :
    st = .ok ∨ (st = .wrap ∧
      d = BitVec.ofInt 16 (s.cy.toInt + (sinq a * (s.r.toNat : Int) + 8192) >>> (14 : Nat)) ++
        BitVec.ofInt 16 (s.cx.toInt + (cosq a * (s.r.toNat : Int) + 8192) >>> (14 : Nat)) ∧
      point a s = { s with lastang := a, err := s.err ||| 0b100000#6 }.reply .wrap d) := by
  rw [← coordinate_eq_shift, ← coordinate_eq_shift]
  rcases point_cases a s with ⟨-, hpoint⟩ | ⟨-, hpoint⟩
  · rw [hpoint] at hresponse
    exact .inl (response_eq_of_append hresponse).1
  · rw [hpoint] at hresponse
    obtain ⟨hst, rfl⟩ := response_eq_of_append hresponse
    exact .inr ⟨hst, rfl, hpoint⟩

/-- Settles O45, by the cases of a word's effect; those that respond OK claim nothing. -/
theorem nonOkEffects : Obligations.NonOkEffects := by
  intro s t w rest st d hpending hstep hresponse u
  rcases step_effect hpending hstep with ⟨e, -, rfl⟩ | ⟨i, hdecode, heff⟩
  · obtain ⟨rfl, rfl⟩ := response_eq_of_append hresponse
    simp [u, Status.code]
  cases heff with
  | pushsOpen sym | pushcOpen _ sym =>
    obtain ⟨d', haccept⟩ := accept_responses sym { s with pending := rest }
    obtain ⟨rfl, -⟩ := response_eq_of_append (haccept.symm.trans hresponse)
    simp
  | pushsEnded | pushcEnded | mapsRefused | rdregReserved | pushcAbsent =>
    obtain ⟨rfl, rfl⟩ := response_eq_of_append hresponse
    simp [u, Status.code]
  | endLen hlength =>
    obtain ⟨rfl, rfl⟩ := response_eq_of_append
      ((congrArg (· ++ _) (endMessage_responses { s with pending := rest })).symm.trans hresponse)
    have hu : endMessage u = { endMessage { s with pending := rest } with err := u.err } :=
      endMessage_set_err { s with pending := rest } u.err
    refine ⟨by simp, by simp, fun _ => ⟨rfl, congrArg (State.reply · .len s.bytecnt) hu.symm, ?_, ?_⟩, by simp⟩
    · simp
    · intro hopen
      simp [hopen]
  | mapa ang =>
    rcases point_answer_cases hresponse with rfl | ⟨rfl, hd, hpoint⟩
    · simp
    · exact ⟨by simp, by simp, by simp, fun _ => ⟨ang, .inl hdecode, hd, hpoint⟩⟩
  | mapsInRange slot frm hin =>
    rcases point_answer_cases hresponse with rfl | ⟨rfl, hd, hpoint⟩
    · simp
    · exact ⟨by simp, by simp, by simp, fun _ =>
        ⟨_, .inr ⟨slot, frm, hdecode, hin, slotAngle_eq_sub slot frm s.nframes⟩, hd, hpoint⟩⟩
  | endOk hlength =>
    obtain ⟨rfl, -⟩ := response_eq_of_append
      ((congrArg (· ++ _) (endMessage_responses { s with pending := rest })).symm.trans hresponse)
    simp
  | _ =>
    obtain ⟨rfl, -⟩ := response_eq_of_append hresponse
    simp

end Sys2Proof.Proofs

namespace Sys2Proof.Proofs
open Sys2Proof.Machine

/-! ### Reset (R230, R231) -/

/-- Settles O1: the registers are the fields of `State.reset`, and ID reads as in every state. -/
theorem resetRegisterValues : Obligations.ResetRegisterValues :=
  ⟨rfl, rfl, rfl, rfl, rfl, rfl, rfl, rfl, rfl, rfl, rfl, rfl, exec_rdreg_id State.reset⟩

/-- Settles O2: the step is `takeReset`, which sets every register and leaves the host's side alone. -/
theorem resetSetsEveryRegister : Obligations.ResetSetsEveryRegister := by
  intro s rest hpending
  refine ⟨takeReset { s with pending := rest }, step_reset s rest hpending, ?_⟩
  simp [exec_rdreg_id]

/-! ### The mapper at the reset registers (R233) -/

/-- On a circle of radius 0 the cosine does not matter: the rounding offset 8192 alone shifts to 0. -/
theorem coordinate_radius_zero (c : BitVec 16) (q : Int) : coordinate c q 0#15 = c.toInt := by
  simp [coordinate]

/-- A center is held in 16 bits, so as a point it fits. -/
theorem pointStatus_toInt (x y : BitVec 16) : pointStatus x.toInt y.toInt = .ok :=
  (pointStatus_ok_iff _ _).2
    ⟨⟨x.le_toInt, Int.le_sub_one_of_lt x.toInt_lt⟩, y.le_toInt, Int.le_sub_one_of_lt y.toInt_lt⟩

/-- On a circle of radius 0 every angle maps to the center. -/
theorem point_radius_zero (a : Angle) {s : State} (h : s.r = 0#15) :
    point a s = { s with lastang := a }.reply .ok (s.cy ++ s.cx) := by
  rw [point, h, coordinate_radius_zero, coordinate_radius_zero, pointStatus_toInt, respond_ok_eq, pointData,
    BitVec.ofInt_toInt, BitVec.ofInt_toInt]

/-- No frame is below NFRAMES = 0. -/
theorem frameInRange_zero (frm : BitVec 24) : frameInRange frm 0#24 = false := rfl

/-- Settles O3: at reset R is 0 and the center the origin, and NFRAMES is 0. -/
theorem mapperFromReset : Obligations.MapperFromReset :=
  ⟨fun a => (exec_mapa a State.reset).trans (congrArg Host.Outcome.next (point_radius_zero a rfl)),
    fun slot frm => exec_maps_refused slot (frameInRange_zero frm)⟩

end Sys2Proof.Proofs
